-- ==== Sys2Proof/Word.lean ====
section
/-! DEFINITION. The words of the synthesis core: the widths of 00_scope.md rule R5, and nothing that a
rule gives a meaning to. -/

namespace Sys2Proof

/-- An operation word, presented whole on the operation port (30_encoding.md rule R70). -/
abbrev OpWord := BitVec 32

/-- One byte: a ControlMessage (10_state.md rule R42), or a byte of a DAC transfer (43_transmit.md rule R152). -/
abbrev Byte := BitVec 8

/-- A pitch operand, `PITCH_W = 8` bits (00_scope.md rule R5). -/
abbrev Pitch := BitVec 8

/-- A velocity operand, `VEL_W = 8` bits (00_scope.md rule R5). -/
abbrev Velocity := BitVec 8

/-- A Sample, "a 12-bit unsigned magnitude (0..4095)" (10_state.md rule R38). -/
abbrev Sample := BitVec 12

/-- A `phase` or a `period`, `PW = 16` bits (10_state.md rules R24, R25). -/
abbrev Period := BitVec 16

/-- The 16-bit DAC word (43_transmit.md rule R151). -/
abbrev DacWord := BitVec 16

/-- A slot index `0..NVOICES-1` of the VoiceBank (00_scope.md rule R14, 10_state.md rule R21). -/
abbrev Slot := Fin 4

end Sys2Proof
end

