-- ==== Sys2Proof/Syntax.lean ====
section
/-! DEFINITION. The operations of SYNOP-1, one constructor per row of spec/opcode_table.json
(00_scope.md rule R2, 30_encoding.md rule R73). -/

namespace Sys2Proof

/-- An operation with its operands, each as the field of the operation word gives it (30_encoding.md rule R75). -/
inductive Instr where
  /-- `NOP` (42_control.md rule R137). -/
  | nop
  /-- `TICK` (41_tick_mix_enqueue.md rule R113). -/
  | tick
  /-- `TX` (43_transmit.md rule R150). -/
  | tx
  /-- `NOTEON pitch, velocity` (42_control.md rule R133). -/
  | noteon (pitch : Pitch) (velocity : Velocity)
  /-- `NOTEOFF pitch` (42_control.md rule R135). -/
  | noteoff (pitch : Pitch)
  /-- `PROG wsel` (42_control.md rule R136). -/
  | prog (wsel : BitVec 2)
  /-- `RXBYTE data` (42_control.md rule R130). -/
  | rxbyte (data : Byte)
  /-- `CPOP` (42_control.md rule R131). -/
  | cpop
  deriving DecidableEq, Repr

end Sys2Proof
end

