-- ==== Sys2Proof/WellFormed.lean ====
section
/-! DEFINITION. Which operation terms some operation word spells. -/

namespace Sys2Proof

/-- The one extra condition of the opcode map (30_encoding.md rules R73, R74 step 4): the selector of `PROG` is
not 3. Every other operand may hold every value of its field (rule R75). -/
def Instr.wellFormed : Instr → Bool
  | .nop => true
  | .tick => true
  | .tx => true
  | .noteon _ _ => true
  | .noteoff _ => true
  | .prog wsel => wsel != 3#2
  | .rxbyte _ => true
  | .cpop => true

end Sys2Proof
end

