-- ==== Sys2Proof/Decode.lean ====
section
/-! DEFINITION. Operation words: their fields, the opcode map, decoding (total, reading the word alone), the
encoder, and the byte order of a listed word (30_encoding.md rules R70 to R79, 20_memory.md rule R60). -/

namespace Sys2Proof

/-! ### Fields (30_encoding.md rule R71) -/

/-- `op = w[31:28]`. -/
def opField (w : OpWord) : BitVec 4 := w.extractLsb' 28 4

/-- `rsv = w[27:16]`. -/
def rsvField (w : OpWord) : BitVec 12 := w.extractLsb' 16 12

/-- `A = w[15:8]`: the pitch. -/
def fieldA (w : OpWord) : BitVec 8 := w.extractLsb' 8 8

/-- `B = w[7:0]`: the velocity or the data byte. -/
def fieldB (w : OpWord) : BitVec 8 := w.extractLsb' 0 8

/-- `wsel = w[9:8]` (30_encoding.md rule R75). -/
def wselField (w : OpWord) : BitVec 2 := w.extractLsb' 8 2

/-! ### The opcode map (30_encoding.md rule R73) -/

/-- The mnemonics of the opcode map. -/
inductive Opcode where
  | nop | tick | tx | noteon | noteoff | prog | rxbyte | cpop
  deriving DecidableEq, Repr

/-- The row that an `op` field selects; `0x8`..`0xF` select none. -/
def Opcode.ofField (op : BitVec 4) : Option Opcode :=
  if op = 0x0#4 then some .nop
  else if op = 0x1#4 then some .tick
  else if op = 0x2#4 then some .tx
  else if op = 0x3#4 then some .noteon
  else if op = 0x4#4 then some .noteoff
  else if op = 0x5#4 then some .prog
  else if op = 0x6#4 then some .rxbyte
  else if op = 0x7#4 then some .cpop
  else none

/-- The row's `match` column. -/
def Opcode.matchWord : Opcode → OpWord
  | .nop => 0x00000000#32
  | .tick => 0x10000000#32
  | .tx => 0x20000000#32
  | .noteon => 0x30000000#32
  | .noteoff => 0x40000000#32
  | .prog => 0x50000000#32
  | .rxbyte => 0x60000000#32
  | .cpop => 0x70000000#32

/-- The row's `mask` column. -/
def Opcode.maskWord : Opcode → OpWord
  | .nop => 0xFFFFFFFF#32
  | .tick => 0xFFFFFFFF#32
  | .tx => 0xFFFFFFFF#32
  | .noteon => 0xFFFF0000#32
  | .noteoff => 0xFFFF00FF#32
  | .prog => 0xFFFFFCFF#32
  | .rxbyte => 0xFFFFFF00#32
  | .cpop => 0xFFFFFFFF#32

/-- The opcode of an operation. -/
def Instr.opcode : Instr → Opcode
  | .nop => .nop
  | .tick => .tick
  | .tx => .tx
  | .noteon _ _ => .noteon
  | .noteoff _ => .noteoff
  | .prog _ => .prog
  | .rxbyte _ => .rxbyte
  | .cpop => .cpop

/-! ### Decoding (30_encoding.md rule R74) -/

/-- Why a word is reserved: the step of rule R74 that finds it so (rule R77 lists the same four kinds). -/
inductive ReservedKind where
  /-- Step 1: `w[27:16] /= 0`. -/
  | rsvNotZero
  /-- Step 2: no row has this `op`. -/
  | noSuchOpcode
  /-- Step 3: a must-be-zero operand field is not zero. -/
  | operandNotZero
  /-- Step 4: `PROG` with selector 3. -/
  | selectorThree
  deriving DecidableEq, Repr

/-- What a word spells. -/
inductive Decoded where
  | op (i : Instr)
  | reserved (why : ReservedKind)
  deriving DecidableEq, Repr

/-- Steps 4 and 5 of rule R74: the operands of rule R75, once the row is selected and its mask matches. -/
def operandsOf (w : OpWord) : Opcode → Decoded
  | .nop => .op .nop
  | .tick => .op .tick
  | .tx => .op .tx
  | .noteon => .op (.noteon (fieldA w) (fieldB w))
  | .noteoff => .op (.noteoff (fieldA w))
  | .prog => if wselField w = 3#2 then .reserved .selectorThree else .op (.prog (wselField w))
  | .rxbyte => .op (.rxbyte (fieldB w))
  | .cpop => .op .cpop

/-- Decoding, in the order of rule R74. -/
def decode (w : OpWord) : Decoded :=
  if rsvField w ≠ 0#12 then .reserved .rsvNotZero
  else
    match Opcode.ofField (opField w) with
    | none => .reserved .noSuchOpcode
    | some o => if w &&& o.maskWord ≠ o.matchWord then .reserved .operandNotZero else operandsOf w o

/-! ### Encoding (30_encoding.md rules R71, R72) -/

/-- The word `0x o 000 AA BB`. -/
def assembleWord (op : BitVec 4) (a b : BitVec 8) : OpWord := op ++ 0#12 ++ a ++ b

/-- The word of an operation, in the format of rule R72. -/
def encode : Instr → OpWord
  | .nop => assembleWord 0x0#4 0#8 0#8
  | .tick => assembleWord 0x1#4 0#8 0#8
  | .tx => assembleWord 0x2#4 0#8 0#8
  | .noteon pitch velocity => assembleWord 0x3#4 pitch velocity
  | .noteoff pitch => assembleWord 0x4#4 pitch 0#8
  | .prog wsel => assembleWord 0x5#4 (0#6 ++ wsel) 0#8
  | .rxbyte data => assembleWord 0x6#4 0#8 data
  | .cpop => assembleWord 0x7#4 0#8 0#8

/-! ### The byte order of a listed word (20_memory.md rule R60: big-endian) -/

/-- The four bytes of a stored operation word, most significant first. -/
def bytesOfWord (w : OpWord) : List Byte :=
  [w.extractLsb' 24 8, w.extractLsb' 16 8, w.extractLsb' 8 8, w.extractLsb' 0 8]

/-- The operation word stored at the head of a byte file, and the bytes after it. -/
def wordOfBytes : List Byte → Option (OpWord × List Byte)
  | b3 :: b2 :: b1 :: b0 :: rest => some (b3 ++ b2 ++ b1 ++ b0, rest)
  | _ => none

/-! ### The table's numbering -/

/-- The operation word with the bits `w` below `nbits` and zeros above, as spec/opcode_table.json numbers them
(bit 0 is the least significant). -/
def tableWord (nbits w : Nat) : OpWord := BitVec.ofNat 32 (w % 2 ^ nbits)

/-- The operation this decoder reads from the table's bits; none where the word is reserved. -/
def decodeTableWord (nbits w : Nat) : Option Instr :=
  match decode (tableWord nbits w) with
  | .op i => some i
  | .reserved _ => none

end Sys2Proof
end

