-- ==== Sys2Proof/Config.lean ====
section
/-! DEFINITION. What an implementation fixes (00_scope.md rule R5): the fixed parameters as constants,
and the values the model's reset state gives the OPEN ones (log 1). No statement rests on the latter: the OPEN
parameters are carried in State and every statement holds for each of their values. -/

namespace Sys2Proof.Config

/-- `NVOICES`, the number of voice slots (00_scope.md rule R5, 10_state.md rule R21). -/
def nVoices : Nat := 4

/-- `FULL = 0xFFF`, the full-scale sample value (00_scope.md rule R5). -/
def full : Nat := 0xFFF

/-- `HIGH = 0xFFF >> 2`, the largest value one voice can output (40_waveform.md rule R90). -/
def high : Nat := full >>> 2

/-- `DAC_PREFIX = 0x3`, placed in bits 15..12 of the DAC word (00_scope.md rule R5): the constant `0x3000`. -/
def dacCommand : DacWord := 0x3#16 <<< 12

/-- `SQ_CAP` as State.reset has it: the spec's default 100 (00_scope.md rule R5; log 1). -/
def sqCapDefault : Nat := 100

/-- `CQ_CAP` as State.reset has it. DESIGN CHOICE (log 1): the spec gives no default; 4 is its examples' value. -/
def cqCapExample : Nat := 4

/-- One entry of the spec's test table `PeriodOfT` (42_control.md rule R138): `128 - p` for `p <= 127`, else 0. -/
def periodOfT (p : Nat) : Period := BitVec.ofNat 16 (128 - p)

/-- `PeriodOf` as State.reset has it. DESIGN CHOICE (log 1): the spec gives no table; this is its examples' table. -/
def periodTableT : Vector Period 256 :=
  ⟨⟨(List.range 256).map periodOfT⟩, by simp⟩

end Sys2Proof.Config
end

