-- ==== Sys2Proof/Machine/State.lean ====
section
/-! DEFINITION. The machine's state (10_state.md rule R20), its parameters, its two output streams, the reasons a
step can stop, and the state after reset (10_state.md rule R39). -/

namespace Sys2Proof.Machine

/-- A waveform selector: 0 Square, 1 Saw, 2 Triangle; "3 is not a waveform" (30_encoding.md rule R76,
93_implementation_defined.md U3; log 8). -/
inductive Waveform where
  | square | saw | triangle
  deriving DecidableEq, Repr

/-- One voice slot (10_state.md rules R22 to R26). -/
structure Voice where
  enabled : Bool
  waveform : Waveform
  phase : Period
  period : Period
  note : Pitch
  deriving DecidableEq, Repr

/-- The VoiceBank, `NVOICES = 4` slots (10_state.md rule R21). -/
structure VoiceBank where
  v0 : Voice
  v1 : Voice
  v2 : Voice
  v3 : Voice
  deriving DecidableEq, Repr

/-- The implementation parameters of 00_scope.md rule R5, the arguments of the spec's `Step` (rule R11). -/
structure Params where
  /-- `SQ_CAP`. -/
  sqCap : Nat
  /-- `CQ_CAP`. -/
  cqCap : Nat
  /-- `PeriodOf`, "a 256-entry read-only table of 16-bit values" (20_memory.md rule R51). -/
  periodOf : Vector Period 256
  deriving DecidableEq, Repr

/-- An event of the DAC stream (43_transmit.md rule R154). -/
inductive DacEvent where
  | ssAssert
  | byte (b : Byte)
  | ssDeassert
  deriving DecidableEq, Repr

/-- An event of the control-delivery stream (00_scope.md rule R10). -/
inductive CtlEvent where
  | ctl (b : Byte)
  deriving DecidableEq, Repr

/-- The result of a queue push (20_memory.md rules R52, R54). -/
inductive PushResult where
  | ok | full
  deriving DecidableEq, Repr

/-- How a `NOTEON` came by its slot (42_control.md rule R134). -/
inductive AllocHow where
  | retrigger | free | steal
  deriving DecidableEq, Repr

/-- The outcome labels of 00_scope.md rule R12. A label names the branch taken; it is no output of the hardware. -/
inductive Label where
  | nop
  | reserved
  /-- `compute(s) enq_ok` and `compute(s) enq_fail`. -/
  | compute (s : Sample) (enq : PushResult)
  /-- `retry(s) enq_ok` and `retry(s) enq_fail`. -/
  | retry (s : Sample) (enq : PushResult)
  | tx (w : DacWord)
  | txSkip
  | noteon (i : Slot) (how : AllocHow)
  | noteonRejected
  | noteoff (i : Slot)
  | noteoffNomatch
  | prog (w : Waveform)
  | rxAccept
  | rxDrop
  | cpop (b : Byte)
  | cpopYield
  deriving DecidableEq, Repr

/-- What the environment does at the block in one step: presents an operation word (30_encoding.md rule R70), or
holds the reset input asserted, during which no operation is accepted (70_reset_and_hazards.md rule R180; log 3). -/
inductive Input where
  | op (w : OpWord)
  | reset
  deriving DecidableEq, Repr

/-- The state. The fields from `bank` to `cq` are the complete architectural state of 10_state.md rule R20. -/
structure State where
  /-- The implementation parameters; no step changes them (10_state.md rule R36; log 1). -/
  params : Params
  /-- `voice[0..3]`. -/
  bank : VoiceBank
  /-- The waveform the next `NOTEON` copies (10_state.md rule R30). -/
  program : Waveform
  /-- The slot the next steal takes (10_state.md rule R31). -/
  rr : Slot
  /-- The "retry pending" flag (10_state.md rule R32). -/
  stall : Bool
  /-- The last computed sample (10_state.md rule R33). -/
  held : Sample
  /-- The SampleQueue, head first (10_state.md rule R34). -/
  sq : List Sample
  /-- The ControlQueue, head first (10_state.md rule R35). -/
  cq : List Byte
  /-- The DAC stream emitted since reset, oldest event first (00_scope.md rule R10; log 4). -/
  dac : List DacEvent
  /-- The control-delivery stream emitted since reset, oldest event first (00_scope.md rule R10; log 4). -/
  ctl : List CtlEvent
  /-- The label of the last operation (00_scope.md rule R12; log 5). -/
  label : Option Label
  /-- What the environment presents next, in order (70_reset_and_hazards.md rule R194; log 2). -/
  inputs : List Input
  deriving DecidableEq, Repr

/-- Why the machine stops. Both are safe: no run from reset meets one (60_exceptions.md rule R177). -/
inductive Fault where
  /-- A computing `TICK` met an enabled voice whose period is 0: "a zero period is undefined/division-by-zero"
  (93_implementation_defined.md U1; log 7). Safe. -/
  | zeroPeriod
  /-- A computing `TICK` met an enabled voice with `phase >= period`, for which 40_waveform.md rules R94 to R98
  define nothing (93_implementation_defined.md U4; log 7). Safe. -/
  | phaseOutOfRange
  deriving DecidableEq, Repr

/-- What the machine does not accept. -/
inductive Refusal where
  /-- An operation that has no meaning here. Raised by no arm: every operation is modelled. Safe. -/
  | notModelled (mnemonic : String)
  /-- An operation word was presented to a state that is not well-formed: "a model started from an ill-formed state
  should refuse" (10_state.md rule R40, 93_implementation_defined.md U4; log 6). Raised by the step. Safe. -/
  | illFormedState
  deriving DecidableEq, Repr

/-- A slot after reset: disabled, Square, everything else 0 (10_state.md rule R39). -/
def Voice.reset : Voice := ⟨false, .square, 0#16, 0#16, 0#8⟩

/-- The VoiceBank after reset. -/
def VoiceBank.reset : VoiceBank := ⟨Voice.reset, Voice.reset, Voice.reset, Voice.reset⟩

/-- The block right after reset with the parameters `p` (10_state.md rule R39, 70_reset_and_hazards.md rule R180). -/
def State.resetWith (p : Params) : State :=
  { params := p
    bank := VoiceBank.reset
    program := .square
    rr := 0
    stall := false
    held := 0#12
    sq := []
    cq := []
    dac := []
    ctl := []
    label := none
    inputs := [] }

/-- The parameter values of State.reset (log 1). -/
def Params.default : Params := ⟨Config.sqCapDefault, Config.cqCapExample, Config.periodTableT⟩

/-- The machine right after reset, with the parameter values of log 1 and nothing yet presented at the port. -/
def State.reset : State := State.resetWith Params.default

end Sys2Proof.Machine
end

