-- ==== Sys2Proof/Machine/Ops.lean ====
section
/-! DEFINITION. The operations over State that the meanings share: the VoiceBank by slot, the FIFO primitives of
20_memory.md, the stall (60_exceptions.md section 3), the output streams, the label. -/

namespace Sys2Proof.Machine

/-! ### One update per piece of state -/

def State.withBank (s : State) (b : VoiceBank) : State := { s with bank := b }
def State.withProgram (s : State) (w : Waveform) : State := { s with program := w }
def State.withRr (s : State) (i : Slot) : State := { s with rr := i }
def State.withStall (s : State) (b : Bool) : State := { s with stall := b }
def State.withHeld (s : State) (x : Sample) : State := { s with held := x }
def State.withSq (s : State) (q : List Sample) : State := { s with sq := q }
def State.withCq (s : State) (q : List Byte) : State := { s with cq := q }
def State.withDac (s : State) (es : List DacEvent) : State := { s with dac := es }
def State.withCtl (s : State) (es : List CtlEvent) : State := { s with ctl := es }
def State.withInputs (s : State) (is : List Input) : State := { s with inputs := is }

/-- Names the branch an operation took (00_scope.md rule R12). -/
def State.withLabel (s : State) (l : Label) : State := { s with label := some l }

/-! ### The VoiceBank by slot (00_scope.md rule R8: `voice[i]`) -/

/-- `voice[i]`. -/
def VoiceBank.get (b : VoiceBank) : Slot → Voice
  | 0 => b.v0
  | 1 => b.v1
  | 2 => b.v2
  | 3 => b.v3

/-- `voice[i] <- v`. -/
def VoiceBank.set (b : VoiceBank) (i : Slot) (v : Voice) : VoiceBank :=
  match i with
  | 0 => { b with v0 := v }
  | 1 => { b with v1 := v }
  | 2 => { b with v2 := v }
  | 3 => { b with v3 := v }

/-- The slots in ascending order. -/
def slots : List Slot := [0, 1, 2, 3]

/-- `voice[i]` of a state. -/
def State.voice (s : State) (i : Slot) : Voice := s.bank.get i

/-- `voice[i] <- v` of a state. -/
def State.setVoice (s : State) (i : Slot) (v : Voice) : State := s.withBank (s.bank.set i v)

/-! ### The FIFO primitives (20_memory.md rules R52 to R55) -/

/-- A push on a bounded FIFO: appends at the tail when there is room, otherwise leaves the queue as it is. -/
def fifoPush {α : Type} (cap : Nat) (q : List α) (x : α) : List α × PushResult :=
  if q.length < cap then (q ++ [x], .ok) else (q, .full)

/-- A pop: the head and the rest, or `empty` and the queue as it is. -/
def fifoPop {α : Type} : List α → Option α × List α
  | [] => (none, [])
  | x :: q => (some x, q)

/-- `SQ.push(s)` (20_memory.md rule R52). -/
def State.sqPush (s : State) (x : Sample) : State × PushResult :=
  (s.withSq (fifoPush s.params.sqCap s.sq x).1, (fifoPush s.params.sqCap s.sq x).2)

/-- `SQ.pop()` (20_memory.md rule R53). -/
def State.sqPop (s : State) : Option Sample × State :=
  ((fifoPop s.sq).1, s.withSq (fifoPop s.sq).2)

/-- `CQ.push(b)` (20_memory.md rule R54). -/
def State.cqPush (s : State) (b : Byte) : State × PushResult :=
  (s.withCq (fifoPush s.params.cqCap s.cq b).1, (fifoPush s.params.cqCap s.cq b).2)

/-- `CQ.pop()` (20_memory.md rule R54). -/
def State.cqPop (s : State) : Option Byte × State :=
  ((fifoPop s.cq).1, s.withCq (fifoPop s.cq).2)

/-! ### Stall entry and exit (60_exceptions.md rules R169, R170): the block's only mode change. It takes no other
exception: no operation saves state for a handler or transfers control (rule R160). -/

/-- Stall entry, also the failed retry: `stall <- 1`. The sample is already in `held` and control goes nowhere. -/
def State.enterStall (s : State) : State := s.withStall true

/-- Stall exit, also the success of a normal tick: `stall <- 0`. Nothing is restored. -/
def State.leaveStall (s : State) : State := s.withStall false

/-! ### The output streams (00_scope.md rule R10) -/

/-- `emit` events on the DAC stream. -/
def State.emitDac (s : State) (es : List DacEvent) : State := s.withDac (s.dac ++ es)

/-- `emit` an event on the control-delivery stream. -/
def State.emitCtl (s : State) (e : CtlEvent) : State := s.withCtl (s.ctl ++ [e])

/-! ### The no-op -/

/-- The whole effect of a reserved word: the state is unchanged, nothing is emitted, the label is `reserved`
(30_encoding.md rule R77). -/
def reservedNoOp (s : State) : State := s.withLabel .reserved

end Sys2Proof.Machine
end

