-- ==== Sys2Proof/Machine/Operands.lean ====
section
/-! DEFINITION. What an operand stands for: the waveform of a selector, the period of a pitch, the slot of a pitch.
Slots are selected by search; the search is the block's only effective-address computation (30_encoding.md rule R83). -/

namespace Sys2Proof.Machine

/-- The 2-bit encoding of a waveform (30_encoding.md rule R76). -/
def Waveform.code : Waveform → BitVec 2
  | .square => 0#2
  | .saw => 1#2
  | .triangle => 2#2

/-- The waveform a selector names; 3 is not a waveform (30_encoding.md rule R76). -/
def Waveform.ofCode (c : BitVec 2) : Option Waveform :=
  if c = 0#2 then some .square
  else if c = 1#2 then some .saw
  else if c = 2#2 then some .triangle
  else none

/-- `PeriodOf(pitch)` (42_control.md rule R138); 0 means that the pitch has no valid period. -/
def Params.period (p : Params) (pitch : Pitch) : Period := p.periodOf[pitch.toNat]'pitch.isLt

/-- The lowest slot that sounds `pitch`: `enabled = 1` and `note = pitch` (42_control.md rules R134, R135). -/
def VoiceBank.sounding (b : VoiceBank) (pitch : Pitch) : Option Slot :=
  slots.find? fun i => (b.get i).enabled && (b.get i).note == pitch

/-- The lowest slot with `enabled = 0` (42_control.md rule R134 step 2). -/
def VoiceBank.free (b : VoiceBank) : Option Slot :=
  slots.find? fun i => !(b.get i).enabled

/-- What `Alloc` answers: the slot, how it came by it, and the value `rr` has afterwards. -/
structure Allocation where
  slot : Slot
  how : AllocHow
  rr : Slot
  deriving DecidableEq, Repr

/-- `Alloc(pitch)` (42_control.md rule R134): the slot already sounding the pitch, else the lowest free slot, else
the slot `rr`, and `rr` moves on (modulo 4) only then. -/
def State.alloc (s : State) (pitch : Pitch) : Allocation :=
  match s.bank.sounding pitch with
  | some i => ⟨i, .retrigger, s.rr⟩
  | none =>
    match s.bank.free with
    | some i => ⟨i, .free, s.rr⟩
    | none => ⟨s.rr, .steal, s.rr + 1⟩

end Sys2Proof.Machine
end

