-- ==== Sys2Proof/Machine/Control.lean ====
section
/-! DEFINITION. The control path (42_control.md): `NOP`, the byte half `RXBYTE` and `CPOP`, the event half `NOTEON`,
`NOTEOFF` and `PROG`, and the reserved words. -/

namespace Sys2Proof.Machine

/-- `NOP` (42_control.md rule R137): the state is unchanged and nothing is emitted. -/
def execNop (s : State) : Host.Outcome State Fault Refusal := .next (s.withLabel .nop)

/-- A reserved word (30_encoding.md rule R77): a no-op that differs from `NOP` only in its label. -/
def execReserved (s : State) : Host.Outcome State Fault Refusal := .next (reservedNoOp s)

/-- `RXBYTE data` (42_control.md rule R130): the byte is queued verbatim, or silently lost when `cq` is full. -/
def execRxbyte (data : Byte) (s : State) : Host.Outcome State Fault Refusal :=
  match s.cqPush data with
  | (s', .ok) => .next (s'.withLabel .rxAccept)
  | (s', .full) => .next (s'.withLabel .rxDrop)

/-- `CPOP` (42_control.md rule R131): the head byte is removed and delivered, or nothing happens. -/
def execCpop (s : State) : Host.Outcome State Fault Refusal :=
  match s.cqPop with
  | (none, s') => .next (s'.withLabel .cpopYield)
  | (some r, s') => .next ((s'.emitCtl (.ctl r)).withLabel (.cpop r))

/-- `NOTEON pitch, velocity` (42_control.md rule R133). The velocity is decoded and then ignored; a pitch with no
valid period is rejected whole. -/
def execNoteon (pitch : Pitch) (_velocity : Velocity) (s : State) : Host.Outcome State Fault Refusal :=
  if s.params.period pitch = 0#16 then .next (s.withLabel .noteonRejected)
  else
    .next (((s.withRr (s.alloc pitch).rr).setVoice (s.alloc pitch).slot
        ⟨true, s.program, 0#16, s.params.period pitch, pitch⟩).withLabel
      (.noteon (s.alloc pitch).slot (s.alloc pitch).how))

/-- `NOTEOFF pitch` (42_control.md rule R135): only `enabled` of the matching slot is written. -/
def execNoteoff (pitch : Pitch) (s : State) : Host.Outcome State Fault Refusal :=
  match s.bank.sounding pitch with
  | some i => .next ((s.setVoice i { s.voice i with enabled := false }).withLabel (.noteoff i))
  | none => .next (s.withLabel .noteoffNomatch)

/-- `PROG wsel` (42_control.md rule R136): only `program` is written. Selector 3 is spelled by the reserved word
`0x50000300` alone (30_encoding.md rule R77), so the term `PROG 3` does what that word does (log 9). -/
def execProg (wsel : BitVec 2) (s : State) : Host.Outcome State Fault Refusal :=
  match Waveform.ofCode wsel with
  | some w => .next ((s.withProgram w).withLabel (.prog w))
  | none => .next (reservedNoOp s)

end Sys2Proof.Machine
end

