-- ==== Sys2Proof/Machine/Flags.lean ====
section
/-! DEFINITION. The one flag, `stall` (10_state.md rule R32), as an enqueue sets it, and the named conditions of
60_exceptions.md read off an outcome label. -/

namespace Sys2Proof.Machine

/-- The flag after an enqueue attempt: "1 exactly when the most recent enqueue attempt by `TICK` failed because the
SampleQueue was full" (10_state.md rule R32). -/
def State.afterEnqueue (s : State) : PushResult → State
  | .ok => s.leaveStall
  | .full => s.enterStall

/-- The conditions that the error taxonomy names (60_exceptions.md rules R161 to R164). -/
inductive Condition where
  | sqFull | cqFull | unrecognised | badPeriod
  deriving DecidableEq, Repr

/-- The empty-queue outcomes, which are not errors (60_exceptions.md rule R165). -/
inductive EmptyOutcome where
  | sqEmpty | cqEmpty
  deriving DecidableEq, Repr

/-- The condition an outcome raises: at most one (60_exceptions.md rule R166). -/
def Label.condition : Label → Option Condition
  | .nop => none
  | .reserved => some .unrecognised
  | .compute _ .ok => none
  | .compute _ .full => some .sqFull
  | .retry _ .ok => none
  | .retry _ .full => some .sqFull
  | .tx _ => none
  | .txSkip => none
  | .noteon _ _ => none
  | .noteonRejected => some .badPeriod
  | .noteoff _ => none
  | .noteoffNomatch => none
  | .prog _ => none
  | .rxAccept => none
  | .rxDrop => some .cqFull
  | .cpop _ => none
  | .cpopYield => none

/-- The empty-queue outcome of a label (60_exceptions.md rule R165). -/
def Label.emptyOutcome : Label → Option EmptyOutcome
  | .txSkip => some .sqEmpty
  | .cpopYield => some .cqEmpty
  | .nop => none
  | .reserved => none
  | .compute _ _ => none
  | .retry _ _ => none
  | .tx _ => none
  | .noteon _ _ => none
  | .noteonRejected => none
  | .noteoff _ => none
  | .noteoffNomatch => none
  | .prog _ => none
  | .rxAccept => none
  | .rxDrop => none
  | .cpop _ => none

end Sys2Proof.Machine
end

