-- ==== Sys2Proof/Machine/Synth.lean ====
section
/-! DEFINITION. The datapath of one `TICK`: the ratio, the three waveforms, the phase advance, the voice step
(40_waveform.md) and the mixer (41_tick_mix_enqueue.md rules R110, R111). All of it is exact arithmetic on naturals
(40_waveform.md rule R101). -/

namespace Sys2Proof.Machine

/-- `Ratio(scale, num, den) = (scale * num) div den` (40_waveform.md rule R91). The divisor's positivity is an
argument, so that no quotient by 0 can be asked for (93_implementation_defined.md U1). -/
def ratio (scale num den : Nat) (_pos : 0 < den) : Nat := scale * num / den

/-- `Half(period)` (40_waveform.md rule R93). -/
def half (period : Nat) : Nat := period / 2

/-- `Square(phase, period)` (40_waveform.md rule R94). -/
def square (phase period : Nat) : Nat := if phase ≤ half period then Config.high else 0

/-- `Saw(phase, period)` (40_waveform.md rule R95). -/
def saw (phase period : Nat) (pos : 0 < period) : Nat := ratio Config.high phase period pos

/-- `Triangle(phase, period)` (40_waveform.md rule R96). -/
def triangle (phase period : Nat) (pos : 0 < period) : Nat :=
  if phase ≤ half period then ratio Config.high (2 * phase) period pos
  else ratio Config.high (2 * (period - phase)) period pos

/-- `Wave(waveform, phase, period)` (40_waveform.md rule R97). -/
def wave (w : Waveform) (phase period : Nat) (pos : 0 < period) : Nat :=
  match w with
  | .square => square phase period
  | .saw => saw phase period pos
  | .triangle => triangle phase period pos

/-- `Advance(phase, period)` (40_waveform.md rule R98). -/
def advance (phase period : Period) : Period :=
  if phase.toNat + 1 ≥ period.toNat then 0#16 else phase + 1#16

/-- `VoiceStep(v)` (40_waveform.md rule R99): the output for the current phase, then the advance; a disabled voice
outputs 0 and does not advance. On an enabled voice outside the voice invariant (10_state.md rule R27) the rules
define no output, and the step faults (log 7). -/
def voiceStep (v : Voice) : Except Fault (Nat × Voice) :=
  if v.enabled then
    if pos : 0 < v.period.toNat then
      if v.phase.toNat < v.period.toNat then
        .ok (wave v.waveform v.phase.toNat v.period.toNat pos, { v with phase := advance v.phase v.period })
      else .error .phaseOutOfRange
    else .error .zeroPeriod
  else .ok (0, v)

/-- `Mix(bank)` (41_tick_mix_enqueue.md rule R110): every slot in ascending order, the outputs summed. -/
def mix (b : VoiceBank) : Except Fault (Nat × VoiceBank) :=
  match voiceStep b.v0, voiceStep b.v1, voiceStep b.v2, voiceStep b.v3 with
  | .ok (o0, v0), .ok (o1, v1), .ok (o2, v2), .ok (o3, v3) => .ok (o0 + o1 + o2 + o3, ⟨v0, v1, v2, v3⟩)
  | .error f, _, _, _ => .error f
  | _, .error f, _, _ => .error f
  | _, _, .error f, _ => .error f
  | _, _, _, .error f => .error f

/-- `Sat12(n) = min(n, 4095)` (41_tick_mix_enqueue.md rule R111). -/
def sat12 (n : Nat) : Sample := BitVec.ofNat 12 (min n Config.full)

end Sys2Proof.Machine
end

