-- ==== Sys2Proof/Machine/Tick.lean ====
section
/-! DEFINITION. The synthesis tick (41_tick_mix_enqueue.md). -/

namespace Sys2Proof.Machine

/-- The one push of a `TICK`, of `held`, and what it does to `stall` (41_tick_mix_enqueue.md rule R113). `lab` gives
the label from the push's result. -/
def State.enqueueHeld (s : State) (lab : Sample → PushResult → Label) : State :=
  ((s.sqPush s.held).1.afterEnqueue (s.sqPush s.held).2).withLabel (lab s.held (s.sqPush s.held).2)

/-- `TICK` (41_tick_mix_enqueue.md rule R113). -/
def execTick (s : State) : Host.Outcome State Fault Refusal :=
  if s.stall then .next (s.enqueueHeld .retry)
  else
    match mix s.bank with
    | .error f => .fault f
    | .ok (acc, bank) => .next (((s.withBank bank).withHeld (sat12 acc)).enqueueHeld .compute)

end Sys2Proof.Machine
end

