-- ==== Sys2Proof/Machine/Transmit.lean ====
section
/-! DEFINITION. The transmission tick and the DAC word (43_transmit.md). -/

namespace Sys2Proof.Machine

/-- `DacWord(s) = 0x3000 | (zext_16(s) & 0x0FFF)` (43_transmit.md rule R151). -/
def dacWord (s : Sample) : DacWord := Config.dacCommand ||| (s.setWidth 16 &&& 0x0FFF#16)

/-- `hi = (w >> 8) & 0xFF` (43_transmit.md rule R152). -/
def highByte (w : DacWord) : Byte := w.extractLsb' 8 8

/-- `lo = w & 0xFF` (43_transmit.md rule R152). -/
def lowByte (w : DacWord) : Byte := w.extractLsb' 0 8

/-- One transfer: slave-select around the two bytes, high byte first (43_transmit.md rule R152). -/
def transfer (w : DacWord) : List DacEvent :=
  [.ssAssert, .byte (highByte w), .byte (lowByte w), .ssDeassert]

/-- `TX` (43_transmit.md rule R150). -/
def execTx (s : State) : Host.Outcome State Fault Refusal :=
  match s.sqPop with
  | (none, s') => .next (s'.withLabel .txSkip)
  | (some r, s') => .next ((s'.emitDac (transfer (dacWord r))).withLabel (.tx (dacWord r)))

end Sys2Proof.Machine
end

