-- ==== Sys2Proof/Machine/Dispatch.lean ====
section
/-! DEFINITION. The meaning of every operation (00_scope.md rule R2): one arm per constructor of Instr. -/

namespace Sys2Proof.Machine

def exec (i : Instr) (s : State) : Host.Outcome State Fault Refusal :=
  match i with
  | .nop => Sys2Proof.Machine.execNop s
  | .tick => Sys2Proof.Machine.execTick s
  | .tx => Sys2Proof.Machine.execTx s
  | .noteon pitch velocity => Sys2Proof.Machine.execNoteon pitch velocity s
  | .noteoff pitch => Sys2Proof.Machine.execNoteoff pitch s
  | .prog wsel => Sys2Proof.Machine.execProg wsel s
  | .rxbyte data => Sys2Proof.Machine.execRxbyte data s
  | .cpop => Sys2Proof.Machine.execCpop s

end Sys2Proof.Machine
end

