-- ==== Sys2Proof/Machine/Invariant.lean ====
section
/-! DEFINITION. The well-formed states of 10_state.md rule R40, in which alone the step function is specified. -/

namespace Sys2Proof.Machine

/-- The voice invariant (10_state.md rule R27); its last clause, `waveform <= 2`, is in the type. -/
abbrev Voice.WellFormed (v : Voice) : Prop :=
  v.enabled = true → 0 < v.period.toNat ∧ v.phase.toNat < v.period.toNat

/-- Every slot meets the voice invariant. -/
abbrev VoiceBank.VoicesWellFormed (b : VoiceBank) : Prop := ∀ i : Slot, (b.get i).WellFormed

/-- Pitch uniqueness (10_state.md rule R41). -/
abbrev VoiceBank.PitchUnique (b : VoiceBank) : Prop :=
  ∀ i j : Slot, i ≠ j →
    ¬((b.get i).enabled = true ∧ (b.get j).enabled = true ∧ (b.get i).note = (b.get j).note)

/-- The constraints on the OPEN parameters (00_scope.md rule R5): the capacities are at least 1. "a capacity of 0 is
outside the spec" (70_reset_and_hazards.md rule R194). -/
abbrev Params.WellFormed (p : Params) : Prop := 1 ≤ p.sqCap ∧ 1 ≤ p.cqCap

/-- The queue bounds (10_state.md rule R40 (b)). -/
abbrev State.QueuesBounded (s : State) : Prop :=
  s.sq.length ≤ s.params.sqCap ∧ s.cq.length ≤ s.params.cqCap

/-- A well-formed state (10_state.md rule R40). Clauses (c), (d) and (e) are in the types of the fields; the
parameters' constraints are added (log 6). -/
abbrev State.WellFormed (s : State) : Prop :=
  s.params.WellFormed ∧ s.bank.VoicesWellFormed ∧ s.bank.PitchUnique ∧ s.QueuesBounded

end Sys2Proof.Machine
end

