-- ==== Sys2Proof/Machine/Port.lean ====
section
/-! DEFINITION. The operation port and the reset input: what one input of the environment does
(30_encoding.md rules R70, R74, R77, 70_reset_and_hazards.md rule R180). -/

namespace Sys2Proof.Machine

/-- One decoded word: an operation has its meaning, a reserved word is a no-op (30_encoding.md rules R74, R77). -/
def execDecoded (d : Decoded) (s : State) : Host.Outcome State Fault Refusal :=
  match d with
  | .op i => exec i s
  | .reserved _ => execReserved s

/-- One operation word at the port. A state that is not well-formed is refused (10_state.md rule R40,
93_implementation_defined.md U4; log 6). -/
def acceptWord (w : OpWord) (s : State) : Host.Outcome State Fault Refusal :=
  if s.WellFormed then execDecoded (decode w) s else .refused .illFormedState

/-- The reset input: the reset state with the same parameters and empty output streams; no operation is accepted
(70_reset_and_hazards.md rule R180; log 3). What the environment does next is not the block's to discard. -/
def applyReset (s : State) : State := (State.resetWith s.params).withInputs s.inputs

/-- One input of the environment. -/
def acceptInput (e : Input) (s : State) : Host.Outcome State Fault Refusal :=
  match e with
  | .op w => acceptWord w s
  | .reset => .next (applyReset s)

/-- One step of the block under its environment: the next input is taken and done; where the environment presents
nothing, the block stays as it is (log 2). -/
def stepPort (s : State) : Host.Outcome State Fault Refusal :=
  match s.inputs with
  | [] => .next s
  | e :: rest => acceptInput e (s.withInputs rest)

/-- `s` with the word `w` as the next one the environment presents. -/
def State.present (s : State) (w : OpWord) : State := s.withInputs (.op w :: s.inputs)

end Sys2Proof.Machine
end

