-- ==== Sys2Proof/Machine/Step.lean ====
section
/-! DEFINITION. The step (00_scope.md rule R11) and how the host presents an operation word to it. -/

namespace Sys2Proof.Machine

/-- One step: the environment's next input. -/
def step (s : State) : Host.Outcome State Fault Refusal := stepPort s

/-- `s` with the table's bits presented at the operation port, where the next step takes its word (log 12). -/
def State.withFetchWord (s : State) (nbits w : Nat) : State := s.present (tableWord nbits w)

end Sys2Proof.Machine
end

