-- ==== Sys2Proof/Machine/Agents.lean ====
section
/-! DEFINITION. The four agents of 20_memory.md rule R62. Which agent issues an operation is a convention of the
environment: the block cannot tell (60_exceptions.md rule R172), and no meaning reads it. -/

namespace Sys2Proof.Machine

inductive Agent where
  | synthesis | transmission | ingestion | control
  deriving DecidableEq, Repr

/-- The agent that issues each operation (20_memory.md rule R62). -/
def issuer : Instr → Agent
  | .tick => .synthesis
  | .tx => .transmission
  | .rxbyte _ => .ingestion
  | .cpop => .control
  | .noteon _ _ => .control
  | .noteoff _ => .control
  | .prog _ => .control
  | .nop => .control

end Sys2Proof.Machine
end

