-- ==== Sys2Proof/Machine/Assembler.lean ====
section
/-! DEFINITION. The textual form of operations and the pseudo-operations (30_encoding.md rules R80, R81). A line is
a list of characters; what the rules leave open of the text (blanks, the case of operands) is log 13. -/

namespace Sys2Proof.Machine

/-- One line, after its operands are read. -/
inductive AsmLine where
  | op (i : Instr)
  | ticks (n : Nat)
  | txs (n : Nat)
  | rxburst (bs : List Byte)
  | drain (n : Nat)
  | word (w : OpWord)
  deriving DecidableEq, Repr

/-- The words of a line, each pseudo-operation with its expansion (30_encoding.md rule R81). -/
def AsmLine.expand : AsmLine → List OpWord
  | .op i => [encode i]
  | .ticks n => List.replicate n (encode .tick)
  | .txs n => List.replicate n (encode .tx)
  | .rxburst bs => bs.map fun b => encode (.rxbyte b)
  | .drain n => List.replicate n (encode .cpop)
  | .word w => [w]

/-- Why a line is an assembly error. -/
inductive AsmError where
  /-- Not a mnemonic of the table or a pseudo-operation. -/
  | unknownMnemonic
  /-- The wrong number of operands. -/
  | operandCount
  /-- Not a number, or not a waveform name. -/
  | badOperand
  /-- "An operand outside its range is an assembly error, not a truncation" (30_encoding.md rule R80). -/
  | outOfRange
  deriving DecidableEq, Repr

/-! ### Characters and tokens -/

def isBlankChar (c : Char) : Bool := c == ' ' || c == '\t' || c == '\r'

/-- Without blanks at either end. -/
def trimBlanks (cs : List Char) : List Char :=
  ((cs.dropWhile isBlankChar).reverse.dropWhile isBlankChar).reverse

/-- The pieces between commas, each without blanks at its ends; a text of blanks has none. -/
def splitCommas (cs : List Char) : List (List Char) :=
  if (trimBlanks cs).isEmpty then [] else (cs.splitOn ',').map trimBlanks

/-- The value of one digit in capitals. -/
def digitValue (c : Char) : Option Nat :=
  if '0' ≤ c ∧ c ≤ '9' then some (c.toNat - '0'.toNat)
  else if 'A' ≤ c ∧ c ≤ 'F' then some (c.toNat - 'A'.toNat + 10)
  else none

/-- The digits of `cs` in `base`, on top of `acc`. -/
def digitsValue (base : Nat) : List Char → Nat → Option Nat
  | [], acc => some acc
  | c :: cs, acc =>
    match digitValue c with
    | some d => if d < base then digitsValue base cs (acc * base + d) else none
    | none => none

/-- A number "in decimal or `0x` hexadecimal" (30_encoding.md rule R80), in capitals. -/
def numberOf : List Char → Option Nat
  | [] => none
  | ['0', 'X'] => none
  | '0' :: 'X' :: cs => digitsValue 16 cs 0
  | cs => digitsValue 10 cs 0

/-- A number operand below `limit`. -/
def operandBelow (limit : Nat) (cs : List Char) : Except AsmError Nat :=
  match numberOf cs with
  | none => .error .badOperand
  | some n => if n < limit then .ok n else .error .outOfRange

/-- A byte operand, 0..255. -/
def byteOperand (cs : List Char) : Except AsmError Byte :=
  match operandBelow 256 cs with
  | .ok n => .ok (BitVec.ofNat 8 n)
  | .error e => .error e

/-- Byte operands in order. -/
def byteOperands : List (List Char) → Except AsmError (List Byte)
  | [] => .ok []
  | cs :: rest =>
    match byteOperand cs, byteOperands rest with
    | .ok b, .ok bs => .ok (b :: bs)
    | .error e, _ => .error e
    | _, .error e => .error e

/-- A repetition count. -/
def countOperand (cs : List Char) : Except AsmError Nat :=
  match numberOf cs with
  | some n => .ok n
  | none => .error .badOperand

/-- `SQUARE | SAW | TRIANGLE`, "or the number 0, 1 or 2". -/
def waveformOperand (cs : List Char) : Except AsmError Waveform :=
  if cs = ['S', 'Q', 'U', 'A', 'R', 'E'] then .ok .square
  else if cs = ['S', 'A', 'W'] then .ok .saw
  else if cs = ['T', 'R', 'I', 'A', 'N', 'G', 'L', 'E'] then .ok .triangle
  else
    match numberOf cs with
    | some 0 => .ok .square
    | some 1 => .ok .saw
    | some 2 => .ok .triangle
    | some _ => .error .outOfRange
    | none => .error .badOperand

/-! ### Lines -/

/-- The mnemonics and pseudo-operations of the textual form. -/
inductive AsmName where
  | nop | tick | tx | noteon | noteoff | prog | rxbyte | cpop | word | ticks | txs | rxburst | drain
  deriving DecidableEq, Repr

def asmNames : List (List Char × AsmName) :=
  [(['N', 'O', 'P'], .nop), (['T', 'I', 'C', 'K'], .tick), (['T', 'X'], .tx),
   (['N', 'O', 'T', 'E', 'O', 'N'], .noteon), (['N', 'O', 'T', 'E', 'O', 'F', 'F'], .noteoff),
   (['P', 'R', 'O', 'G'], .prog), (['R', 'X', 'B', 'Y', 'T', 'E'], .rxbyte), (['C', 'P', 'O', 'P'], .cpop),
   (['.', 'W', 'O', 'R', 'D'], .word), (['T', 'I', 'C', 'K', 'S'], .ticks), (['T', 'X', 'S'], .txs),
   (['R', 'X', 'B', 'U', 'R', 'S', 'T'], .rxburst), (['D', 'R', 'A', 'I', 'N'], .drain)]

/-- A result mapped to a line. -/
def asLine {α : Type} (f : α → AsmLine) : Except AsmError α → Except AsmError AsmLine
  | .ok a => .ok (f a)
  | .error e => .error e

/-- A mnemonic with its operands. -/
def lineOf (name : AsmName) (args : List (List Char)) : Except AsmError AsmLine :=
  match name, args with
  | .nop, [] => .ok (.op .nop)
  | .tick, [] => .ok (.op .tick)
  | .tx, [] => .ok (.op .tx)
  | .cpop, [] => .ok (.op .cpop)
  | .noteon, [p, v] =>
    match byteOperand p, byteOperand v with
    | .ok p, .ok v => .ok (.op (.noteon p v))
    | .error e, _ => .error e
    | _, .error e => .error e
  | .noteoff, [p] => asLine (fun p => .op (.noteoff p)) (byteOperand p)
  | .prog, [w] => asLine (fun w => .op (.prog w.code)) (waveformOperand w)
  | .rxbyte, [b] => asLine (fun b => .op (.rxbyte b)) (byteOperand b)
  | .word, [w] => asLine (fun n => .word (BitVec.ofNat 32 n)) (operandBelow (2 ^ 32) w)
  | .ticks, [n] => asLine .ticks (countOperand n)
  | .txs, [n] => asLine .txs (countOperand n)
  | .drain, [n] => asLine .drain (countOperand n)
  | .rxburst, b :: bs => asLine .rxburst (byteOperands (b :: bs))
  | _, _ => .error .operandCount

/-- The words of one line of text: `;` to end of line is a comment, mnemonics are case-insensitive, operands are
separated by commas (30_encoding.md rule R80); a line with no mnemonic has no words. -/
def assembleLine (cs : List Char) : Except AsmError (List OpWord) :=
  let text := trimBlanks ((cs.takeWhile (· != ';')).map Char.toUpper)
  if text.isEmpty then .ok []
  else
    let name := text.takeWhile fun c => !isBlankChar c
    let rest := text.dropWhile fun c => !isBlankChar c
    match asmNames.lookup name with
    | none => .error .unknownMnemonic
    | some n =>
      match lineOf n (splitCommas rest) with
      | .ok l => .ok l.expand
      | .error e => .error e

/-- The words of a text, line by line. -/
def assembleText : List (List Char) → Except AsmError (List OpWord)
  | [] => .ok []
  | l :: ls =>
    match assembleLine l, assembleText ls with
    | .ok ws, .ok rest => .ok (ws ++ rest)
    | .error e, _ => .error e
    | _, .error e => .error e

end Sys2Proof.Machine
end

