-- ==== Sys2Proof/Machine/Run.lean ====
section
/-! DEFINITION. A run: "a finite list of operation words applied in order from a stated start state"
(70_reset_and_hazards.md rule R193), and the samples computed and the bytes accepted along it. -/

namespace Sys2Proof.Machine

/-- The result of a run: the final state, which holds the two output streams. -/
def runWords : List OpWord → State → Host.Outcome State Fault Refusal
  | [], s => .next s
  | w :: ws, s =>
    match acceptWord w s with
    | .next t => runWords ws t
    | .fault f => .fault f
    | .refused r => .refused r

/-- The sample computed by a word that took `s` to `t`: that of a computing tick, a `TICK` that begins with
`stall = 0` (41_tick_mix_enqueue.md rule R116). -/
def computedBy (w : OpWord) (s t : State) : List Sample :=
  if decode w = .op .tick ∧ s.stall = false then [t.held] else []

/-- The samples computed along a run, in order. -/
def computedAlong : List OpWord → State → List Sample
  | [], _ => []
  | w :: ws, s =>
    match acceptWord w s with
    | .next t => computedBy w s t ++ computedAlong ws t
    | .fault _ => []
    | .refused _ => []

/-- The byte accepted by a word in `s`: the operand of an `RXBYTE` that finds room (42_control.md rule R130). -/
def acceptedBy (w : OpWord) (s : State) : List Byte :=
  match decode w with
  | .op (.rxbyte b) => if s.cq.length < s.params.cqCap then [b] else []
  | _ => []

/-- The bytes accepted along a run, in order. -/
def acceptedAlong : List OpWord → State → List Byte
  | [], _ => []
  | w :: ws, s =>
    match acceptWord w s with
    | .next t => acceptedBy w s ++ acceptedAlong ws t
    | .fault _ => []
    | .refused _ => []

/-- The number of `TICK`s of a run. -/
def ticksIn (ws : List OpWord) : Nat := ws.countP fun w => decode w == .op .tick

/-- The number of overflow events along a run: the `TICK`s whose push finds the SampleQueue full
(41_tick_mix_enqueue.md rule R116). -/
def overflowsAlong : List OpWord → State → Nat
  | [], _ => 0
  | w :: ws, s =>
    match acceptWord w s with
    | .next t => (if decode w = .op .tick ∧ s.params.sqCap ≤ s.sq.length then 1 else 0) + overflowsAlong ws t
    | .fault _ => 0
    | .refused _ => 0

end Sys2Proof.Machine
end

