-- ==== Sys2Proof/Machine/Streams.lean ====
section
/-! DEFINITION. What the environment reads from the two output streams (10_state.md rule R37, 43_transmit.md
rule R153), and which samples and bytes the block holds or has delivered. -/

namespace Sys2Proof.Machine

/-- The byte pairs of a stream that is a concatenation of transfers of the form of 43_transmit.md rule R152, high
byte first; none where the stream is anything else. -/
def transfersOf : List DacEvent → Option (List (Byte × Byte))
  | [] => some []
  | .ssAssert :: .byte hi :: .byte lo :: .ssDeassert :: rest => (transfersOf rest).map ((hi, lo) :: ·)
  | _ => none

/-- The sample of one transfer: `((hi & 0x0F) << 8) | lo` (43_transmit.md rule R153). -/
def sampleOfTransfer (p : Byte × Byte) : Sample :=
  ((p.1 &&& 0x0F#8).setWidth 12 <<< 8) ||| p.2.setWidth 12

/-- The stream is well bracketed, and the first byte of every transfer has the high nibble `0x3`
(43_transmit.md rule R153). -/
def dacBracketed (es : List DacEvent) : Bool :=
  match transfersOf es with
  | some ps => ps.all fun p => p.1.extractLsb' 4 4 == 0x3#4
  | none => false

/-- The samples recovered from the DAC stream (43_transmit.md rule R153). -/
def sentSamples (es : List DacEvent) : List Sample := ((transfersOf es).getD []).map sampleOfTransfer

/-- The sample whose enqueue is pending: the stale sample of a stall (10_state.md rules R32, R33). -/
def State.pendingSample (s : State) : List Sample :=
  match s.stall with
  | true => [s.held]
  | false => []

/-- Every sample the block has computed since reset, as it accounts for them: sent, queued, or held in a stall
(41_tick_mix_enqueue.md rule R115, 43_transmit.md rule R153). -/
def State.accountedSamples (s : State) : List Sample := sentSamples s.dac ++ s.sq ++ s.pendingSample

/-- The byte of a control-delivery event. -/
def CtlEvent.data : CtlEvent → Byte
  | .ctl b => b

/-- Every byte the block has accepted since reset: delivered or queued (20_memory.md rule R64). -/
def State.accountedBytes (s : State) : List Byte := s.ctl.map CtlEvent.data ++ s.cq

end Sys2Proof.Machine
end

