-- ==== Sys2Proof/Safety.lean ====
section
/-! DEFINITION. What counts as a safe state and a safe run of the synthesis core: "the step function never faults,
never hangs and is never stuck" (60_exceptions.md rule R177). -/

namespace Sys2Proof.Machine

/-- The states a run may pass through: well-formed (10_state.md rule R40), with a DAC stream that is well bracketed
(43_transmit.md rule R153). -/
def State.Sound (s : State) : Prop := s.WellFormed ∧ dacBracketed s.dac = true

/-- The states reachable from reset, for any parameters the spec admits and anything the environment may present
(70_reset_and_hazards.md rules R182, R194). -/
inductive Reachable : State → Prop where
  | reset (p : Params) (hp : p.WellFormed) (inputs : List Input) :
      Reachable ((State.resetWith p).withInputs inputs)
  | step (s t : State) (hs : Reachable s) (h : step s = .next t) : Reachable t

/-- The step goes on from `s`: it neither faults nor refuses. -/
def GoesOn (s : State) : Prop := ∃ t, step s = .next t

end Sys2Proof.Machine
end

