-- ==== Sys2Proof/Certificates/Slice0/Obligations.lean ====
section
/-! DEFINITION. The statements for the provers, from the numbered rules of spec/. A next state is written out as an
update of the state before, so that every field the update does not name is unchanged: that is the frame. The block
has no addressable memory; its stored data are the two queues, which the updates name. The label (00_scope.md rule
R12) is the model's and no output of the hardware. -/

open Sys2Proof Sys2Proof.Machine

/-! ### Encoding (30_encoding.md) -/

/-- 30_encoding.md rules R73, R75: a word spells a row's operation when `(w & mask) = match` and the row's extra
condition holds, with the operands `pitch = w[15:8]`, `velocity = w[7:0]`, `data = w[7:0]`, `wsel = w[9:8]`. -/
def Obligations.DecodingFollowsTheOpcodeMap : Prop :=
  ∀ w : OpWord,
    (decode w = .op .nop ↔ w &&& 0xFFFFFFFF#32 = 0x00000000#32) ∧
    (decode w = .op .tick ↔ w &&& 0xFFFFFFFF#32 = 0x10000000#32) ∧
    (decode w = .op .tx ↔ w &&& 0xFFFFFFFF#32 = 0x20000000#32) ∧
    (∀ p v, decode w = .op (.noteon p v) ↔
      w &&& 0xFFFF0000#32 = 0x30000000#32 ∧ p = w.extractLsb' 8 8 ∧ v = w.extractLsb' 0 8) ∧
    (∀ p, decode w = .op (.noteoff p) ↔ w &&& 0xFFFF00FF#32 = 0x40000000#32 ∧ p = w.extractLsb' 8 8) ∧
    (∀ c, decode w = .op (.prog c) ↔
      w &&& 0xFFFFFCFF#32 = 0x50000000#32 ∧ w.extractLsb' 8 2 ≠ 3#2 ∧ c = w.extractLsb' 8 2) ∧
    (∀ b, decode w = .op (.rxbyte b) ↔ w &&& 0xFFFFFF00#32 = 0x60000000#32 ∧ b = w.extractLsb' 0 8) ∧
    (decode w = .op .cpop ↔ w &&& 0xFFFFFFFF#32 = 0x70000000#32)

/-- 30_encoding.md rule R74: decoding in the order of the rule's five steps, over the rows of rule R73 (opcode, row,
match, mask). Which operands the fifth step gives is rule R75, stated by `DecodingFollowsTheOpcodeMap`. -/
def Obligations.DecodingTakesTheFiveSteps : Prop :=
  let rows : List (BitVec 4 × Opcode × OpWord × OpWord) :=
    [(0x0#4, .nop, 0x00000000#32, 0xFFFFFFFF#32), (0x1#4, .tick, 0x10000000#32, 0xFFFFFFFF#32),
     (0x2#4, .tx, 0x20000000#32, 0xFFFFFFFF#32), (0x3#4, .noteon, 0x30000000#32, 0xFFFF0000#32),
     (0x4#4, .noteoff, 0x40000000#32, 0xFFFF00FF#32), (0x5#4, .prog, 0x50000000#32, 0xFFFFFCFF#32),
     (0x6#4, .rxbyte, 0x60000000#32, 0xFFFFFF00#32), (0x7#4, .cpop, 0x70000000#32, 0xFFFFFFFF#32)]
  ∀ w : OpWord,
    (w.extractLsb' 16 12 ≠ 0#12 → decode w = .reserved .rsvNotZero) ∧
    (w.extractLsb' 16 12 = 0#12 →
      (8 ≤ (w.extractLsb' 28 4).toNat → decode w = .reserved .noSuchOpcode) ∧
      ∀ r ∈ rows, w.extractLsb' 28 4 = r.1 →
        (w &&& r.2.2.2 ≠ r.2.2.1 → decode w = .reserved .operandNotZero) ∧
        (w &&& r.2.2.2 = r.2.2.1 →
          (r.2.1 = .prog ∧ w.extractLsb' 8 2 = 3#2 → decode w = .reserved .selectorThree) ∧
          (¬(r.2.1 = .prog ∧ w.extractLsb' 8 2 = 3#2) → ∃ i : Instr, decode w = .op i ∧ i.opcode = r.2.1)))

/-- Decode and encode agree on every well-formed operation, with every operand at every value its field admits. -/
def Obligations.DecodeOfEncodeIsTheOperation : Prop :=
  ∀ i : Instr, i.wellFormed = true → decode (encode i) = .op i

/-- The converse: a word that decodes to an operation is the encoding of it, bit for bit, and the operation is
well-formed. -/
def Obligations.DecodedWordIsItsEncoding : Prop :=
  ∀ (w : OpWord) (i : Instr), decode w = .op i → encode i = w ∧ i.wellFormed = true

/-- A few words of 95_test_vectors.md V-D decode to the operations they are listed with. -/
def Obligations.ListedWordsDecode : Prop :=
  decode 0x10000000#32 = .op .tick ∧ decode 0x30007C64#32 = .op (.noteon 124#8 100#8) ∧
  decode 0x40007C00#32 = .op (.noteoff 124#8) ∧ decode 0x50000200#32 = .op (.prog 2#2) ∧
  decode 0x600000A5#32 = .op (.rxbyte 0xA5#8) ∧ decode 0x50000300#32 = .reserved .selectorThree ∧
  decode 0x30017C64#32 = .reserved .rsvNotZero ∧ decode 0x80000000#32 = .reserved .noSuchOpcode ∧
  decode 0x10000001#32 = .reserved .operandNotZero

/-- 20_memory.md rule R60: a stored word is four bytes, big-endian, and reads back. -/
def Obligations.StoredWordReadsBackBigEndian : Prop :=
  ∀ (w : OpWord) (rest : List Byte),
    (bytesOfWord w).map BitVec.toNat =
      [w.toNat / 2 ^ 24, w.toNat / 2 ^ 16 % 256, w.toNat / 2 ^ 8 % 256, w.toNat % 256] ∧
    wordOfBytes (bytesOfWord w ++ rest) = some (w, rest)

/-- 30_encoding.md rule R81: the expansion of each pseudo-operation. -/
def Obligations.PseudoOperationsExpand : Prop :=
  (∀ n, (AsmLine.ticks n).expand = List.replicate n 0x10000000#32) ∧
  (∀ n, (AsmLine.txs n).expand = List.replicate n 0x20000000#32) ∧
  (∀ n, (AsmLine.drain n).expand = List.replicate n 0x70000000#32) ∧
  (∀ bs : List Byte, (AsmLine.rxburst bs).expand.map decode = bs.map fun b => Decoded.op (.rxbyte b))

/-! ### The port, the reset input -/

/-- A step at a well-formed state runs the operation that the word presented next decodes to, at that state with the
word taken from the inputs. -/
def Obligations.StepRunsTheDecodedOperation : Prop :=
  ∀ (s : State) (w : OpWord) (rest : List Input) (i : Instr),
    s.WellFormed → s.inputs = .op w :: rest → decode w = .op i →
    step s = exec i { s with inputs := rest }

/-- The word that the host presents is the one the next step runs. -/
def Obligations.PresentedWordRunsNext : Prop :=
  ∀ (s : State) (nbits w : Nat) (i : Instr),
    s.WellFormed → decodeTableWord nbits w = some i → step (s.withFetchWord nbits w) = exec i s

/-- 30_encoding.md rule R77: a word of the reserved space (`op` 8 to 15; `rsv` not zero; a must-be-zero field of a
known `op` not zero; `PROG` with selector 3) leaves the state unchanged and emits nothing; the label is `reserved`. -/
def Obligations.ReservedWordChangesNothing : Prop :=
  ∀ (s : State) (w : OpWord) (rest : List Input), s.WellFormed → s.inputs = .op w :: rest →
    8 ≤ (w.extractLsb' 28 4).toNat ∨ w.extractLsb' 16 12 ≠ 0#12 ∨
      (w.extractLsb' 28 4 ∈ [0x0#4, 0x1#4, 0x2#4, 0x7#4] ∧ (w.extractLsb' 8 8 ≠ 0#8 ∨ w.extractLsb' 0 8 ≠ 0#8)) ∨
      (w.extractLsb' 28 4 = 0x4#4 ∧ w.extractLsb' 0 8 ≠ 0#8) ∨
      (w.extractLsb' 28 4 = 0x5#4 ∧
        (w.extractLsb' 10 6 ≠ 0#6 ∨ w.extractLsb' 0 8 ≠ 0#8 ∨ w.extractLsb' 8 2 = 3#2)) ∨
      (w.extractLsb' 28 4 = 0x6#4 ∧ w.extractLsb' 8 8 ≠ 0#8) →
    step s = .next { s with inputs := rest, label := some .reserved }

/-- 10_state.md rule R40, 93_implementation_defined.md U4: a state that is not well-formed is refused. The
parameters' constraints are counted in by the model (log 6). -/
def Obligations.IllFormedStateIsRefused : Prop :=
  ∀ (s : State) (w : OpWord) (rest : List Input),
    ¬ s.WellFormed → s.inputs = .op w :: rest → step s = .refused .illFormedState

/-- The model's choice (log 2): where the environment presents nothing, the block stays as it is. -/
def Obligations.NothingPresentedNothingDone : Prop :=
  ∀ s : State, s.inputs = [] → step s = .next s

/-- 70_reset_and_hazards.md rule R180: the reset input, asserted in any state, leaves the reset state and empty output
streams; the parameters are as they were (10_state.md rule R36). That an assertion of the input is one step, which
takes no operation word and keeps what the environment presents later, is the model's choice (log 3). -/
def Obligations.ResetInputResetsTheBlock : Prop :=
  ∀ (s : State) (rest : List Input), s.inputs = .reset :: rest →
    ∃ t : State, step s = .next t ∧
      (∀ i : Slot, t.bank.get i = ⟨false, .square, 0#16, 0#16, 0#8⟩) ∧
      t.program = .square ∧ t.rr = 0 ∧ t.stall = false ∧ t.held = 0#12 ∧ t.sq = [] ∧ t.cq = [] ∧
      t.dac = [] ∧ t.ctl = [] ∧ t.params = s.params ∧ t.inputs = rest

/-- 10_state.md rule R39: the value of every state element after reset. (The parameter values that State.reset
carries, its label and its empty inputs are the model's: logs 1, 2, 5. They are not stated.) -/
def Obligations.ResetValues : Prop :=
  ∀ s : State, (∃ p : Params, s = State.resetWith p) ∨ s = State.reset →
    (∀ i : Slot, (s.bank.get i).enabled = false ∧ (s.bank.get i).waveform = .square ∧
      (s.bank.get i).phase = 0#16 ∧ (s.bank.get i).period = 0#16 ∧ (s.bank.get i).note = 0#8) ∧
    s.program = .square ∧ s.rr = 0 ∧ s.stall = false ∧ s.held = 0#12 ∧ s.sq = [] ∧ s.cq = []

/-- 70_reset_and_hazards.md rule R181, which the spec derives: the first operation after reset; a block that is ticked
before any note is played queues a zero sample, which goes out as the word `0x3000`. -/
def Obligations.FirstOperationAfterReset : Prop :=
  ∀ p : Params, p.WellFormed →
    let s := State.resetWith p
    exec .tick s = .next { s with sq := [0#12], label := some (.compute 0#12 .ok) } ∧
    exec .tx { s with sq := [0#12], label := some (.compute 0#12 .ok) } =
      .next { s with dac := [.ssAssert, .byte 0x30#8, .byte 0x00#8, .ssDeassert], label := some (.tx 0x3000#16) } ∧
    exec .tx s = .next { s with label := some .txSkip } ∧
    exec .cpop s = .next { s with label := some .cpopYield } ∧
    (∀ n : Pitch, exec (.noteoff n) s = .next { s with label := some .noteoffNomatch }) ∧
    (∀ (n : Pitch) (v : Velocity), p.period n ≠ 0#16 →
      exec (.noteon n v) s = .next
        { s with bank := { s.bank with v0 := ⟨true, .square, 0#16, p.period n, n⟩ }
                 label := some (.noteon 0 .free) }) ∧
    (∀ w : Waveform, exec (.prog w.code) s = .next { s with program := w, label := some (.prog w) }) ∧
    (∀ b : Byte, exec (.rxbyte b) s = .next { s with cq := [b], label := some .rxAccept })

/-! ### The operations, each with its whole next state -/

/-- 42_control.md rule R137. -/
def Obligations.NopDoesNothing : Prop :=
  decode 0x00000000#32 = .op .nop ∧
  (∀ s : State, exec .nop s = .next { s with label := some .nop }) ∧
  (∀ (s : State) (w : OpWord) (why : ReservedKind), decode w = .reserved why →
    execDecoded (decode w) s = .next { s with label := some .reserved })

/-- 41_tick_mix_enqueue.md rule R113, with the waveforms of 40_waveform.md rules R94 to R96 and the advance of rule
R98 written out: a retry tick does the retry alone; a computing tick outputs, advances, then pushes. -/
def Obligations.TickComputesOrRetries : Prop :=
  decode 0x10000000#32 = .op .tick ∧
  (∀ s : State, s.stall = true →
    exec .tick s = .next
      { s with sq := if s.sq.length < s.params.sqCap then s.sq ++ [s.held] else s.sq
               stall := !decide (s.sq.length < s.params.sqCap)
               label := some (.retry s.held (if s.sq.length < s.params.sqCap then .ok else .full)) }) ∧
  (∀ s : State, s.stall = false → s.bank.VoicesWellFormed →
    let phase (i : Slot) : Nat := (s.bank.get i).phase.toNat
    let period (i : Slot) : Nat := (s.bank.get i).period.toNat
    let out (i : Slot) : Nat :=
      if (s.bank.get i).enabled = false then 0
      else
        match (s.bank.get i).waveform with
        | .square => if phase i ≤ period i / 2 then 1023 else 0
        | .saw => 1023 * phase i / period i
        | .triangle =>
          if phase i ≤ period i / 2 then 1023 * (2 * phase i) / period i
          else 1023 * (2 * (period i - phase i)) / period i
    let sample : Sample := BitVec.ofNat 12 (min (out 0 + out 1 + out 2 + out 3) 4095)
    ∃ bank : VoiceBank,
      (∀ i : Slot, bank.get i =
        { s.bank.get i with
          phase := if (s.bank.get i).enabled = false then (s.bank.get i).phase
                   else if phase i + 1 ≥ period i then 0#16 else BitVec.ofNat 16 (phase i + 1) }) ∧
      exec .tick s = .next
        { s with bank := bank
                 held := sample
                 sq := if s.sq.length < s.params.sqCap then s.sq ++ [sample] else s.sq
                 stall := !decide (s.sq.length < s.params.sqCap)
                 label := some (.compute sample (if s.sq.length < s.params.sqCap then .ok else .full)) })

/-- 43_transmit.md rules R150, R152: the empty queue is skipped; otherwise the head goes out as one transfer, high
byte first. -/
def Obligations.TxSendsTheHeadOrSkips : Prop :=
  decode 0x20000000#32 = .op .tx ∧
  (∀ s : State, s.sq = [] → exec .tx s = .next { s with label := some .txSkip }) ∧
  (∀ (s : State) (r : Sample) (q : List Sample), s.sq = r :: q →
    let w : BitVec 16 := 0x3000#16 ||| (r.setWidth 16 &&& 0x0FFF#16)
    exec .tx s = .next
      { s with sq := q
               dac := s.dac ++ [.ssAssert, .byte ((w >>> 8).setWidth 8), .byte (w.setWidth 8), .ssDeassert]
               label := some (.tx w) })

/-- 42_control.md rules R133, R134: a pitch with no valid period is rejected whole; otherwise the slot already
sounding the pitch, else the lowest free slot, else the slot `rr` is written, all five fields; `rr` moves only on a
steal; the velocity plays no part. -/
def Obligations.NoteonAllocatesAndWritesOneSlot : Prop :=
  (∀ (n : Pitch) (v : Velocity),
    decode (0x30000000#32 ||| (n.setWidth 32 <<< 8) ||| v.setWidth 32) = .op (.noteon n v)) ∧
  ∀ (s : State) (n : Pitch) (v : Velocity),
    let sounds (i : Slot) : Prop := (s.bank.get i).enabled = true ∧ (s.bank.get i).note = n
    let writes (i : Slot) (bank : VoiceBank) : Prop :=
      ∀ j : Slot, bank.get j = if j = i then ⟨true, s.program, 0#16, s.params.period n, n⟩ else s.bank.get j
    (s.params.period n = 0#16 → exec (.noteon n v) s = .next { s with label := some .noteonRejected }) ∧
    (s.params.period n ≠ 0#16 →
      (∀ i : Slot, sounds i → (∀ j < i, ¬ sounds j) →
        ∃ bank, writes i bank ∧
          exec (.noteon n v) s = .next { s with bank := bank, label := some (.noteon i .retrigger) }) ∧
      (∀ i : Slot, (∀ j, ¬ sounds j) → (s.bank.get i).enabled = false → (∀ j < i, (s.bank.get j).enabled = true) →
        ∃ bank, writes i bank ∧
          exec (.noteon n v) s = .next { s with bank := bank, label := some (.noteon i .free) }) ∧
      ((∀ j, ¬ sounds j) → (∀ j, (s.bank.get j).enabled = true) →
        ∃ bank, ∃ rr : Slot, writes s.rr bank ∧ rr.val = (s.rr.val + 1) % 4 ∧
          exec (.noteon n v) s = .next { s with bank := bank, rr := rr, label := some (.noteon s.rr .steal) }))

/-- 42_control.md rule R135: the lowest slot that sounds the pitch is disabled, its other fields kept; if none does,
nothing changes. -/
def Obligations.NoteoffDisablesTheSoundingSlot : Prop :=
  (∀ n : Pitch, decode (0x40000000#32 ||| (n.setWidth 32 <<< 8)) = .op (.noteoff n)) ∧
  ∀ (s : State) (n : Pitch),
    let sounds (i : Slot) : Prop := (s.bank.get i).enabled = true ∧ (s.bank.get i).note = n
    (∀ i : Slot, sounds i → (∀ j < i, ¬ sounds j) →
      ∃ bank : VoiceBank,
        (∀ j : Slot, bank.get j = if j = i then { s.bank.get i with enabled := false } else s.bank.get j) ∧
        exec (.noteoff n) s = .next { s with bank := bank, label := some (.noteoff i) }) ∧
    ((∀ i, ¬ sounds i) → exec (.noteoff n) s = .next { s with label := some .noteoffNomatch })

/-- 42_control.md rule R136: only `program` is written. -/
def Obligations.ProgWritesTheProgram : Prop :=
  (∀ c : BitVec 2, c ≠ 3#2 → decode (0x50000000#32 ||| (c.setWidth 32 <<< 8)) = .op (.prog c)) ∧
  (∀ s : State, exec (.prog 0#2) s = .next { s with program := .square, label := some (.prog .square) }) ∧
  (∀ s : State, exec (.prog 1#2) s = .next { s with program := .saw, label := some (.prog .saw) }) ∧
  (∀ s : State, exec (.prog 2#2) s = .next { s with program := .triangle, label := some (.prog .triangle) }) ∧
  decode 0x50000300#32 = .reserved .selectorThree

/-- The model's choice (log 9): the term `PROG 3`, which no word decodes to, does what the word `0x50000300` does. -/
def Obligations.ProgThreeIsTheReservedWord : Prop :=
  ∀ s : State, exec (.prog 3#2) s = execDecoded (decode 0x50000300#32) s ∧
    exec (.prog 3#2) s = .next { s with label := some .reserved }

/-- 42_control.md rule R130: the byte is appended when there is room and lost when there is none. -/
def Obligations.RxbyteQueuesOrDrops : Prop :=
  (∀ b : Byte, decode (0x60000000#32 ||| b.setWidth 32) = .op (.rxbyte b)) ∧
  (∀ (s : State) (b : Byte), s.cq.length < s.params.cqCap →
    exec (.rxbyte b) s = .next { s with cq := s.cq ++ [b], label := some .rxAccept }) ∧
  (∀ (s : State) (b : Byte), s.params.cqCap ≤ s.cq.length →
    exec (.rxbyte b) s = .next { s with label := some .rxDrop })

/-- 42_control.md rule R131: the head byte is removed and delivered, or nothing happens. -/
def Obligations.CpopDeliversTheHeadOrYields : Prop :=
  decode 0x70000000#32 = .op .cpop ∧
  (∀ s : State, s.cq = [] → exec .cpop s = .next { s with label := some .cpopYield }) ∧
  (∀ (s : State) (b : Byte) (q : List Byte), s.cq = b :: q →
    exec .cpop s = .next { s with cq := q, ctl := s.ctl ++ [.ctl b], label := some (.cpop b) })

/-- 93_implementation_defined.md U1: an enabled voice with period 0 stops a computing tick; it is never divided by. -/
def Obligations.ZeroPeriodOnAnEnabledVoiceFaults : Prop :=
  ∀ (s : State) (i : Slot), s.stall = false → (s.bank.get i).enabled = true → (s.bank.get i).period = 0#16 →
    ∃ f : Fault, exec .tick s = .fault f

/-! ### The datapath (40_waveform.md, 41_tick_mix_enqueue.md, 43_transmit.md) -/

/-- 40_waveform.md rules R91, R92: the ratio is the exact quotient truncated toward zero, and the truncation law. -/
def Obligations.RatioTruncatesTheExactQuotient : Prop :=
  (∀ (scale num den : Nat) (pos : 0 < den),
    ratio scale num den pos * den ≤ scale * num ∧ scale * num < (ratio scale num den pos + 1) * den ∧
    ratio scale 0 den pos = 0 ∧ ratio scale den den pos = scale ∧
    (0 < scale → num < den → ratio scale num den pos < scale)) ∧
  ratio 0xFFF 45 45 (by decide) = 0xFFF ∧ ratio 1023 9 10 (by decide) = 920 ∧
  ratio 1023 3 10 (by decide) = 306

/-- 40_waveform.md rule R94: `HIGH` up to and including `period div 2`, 0 after; `Half + 1` phases of a period are
high, always more than half of them; the document's period 10. -/
def Obligations.SquareIsHighForTheFirstHalf : Prop :=
  (∀ phase period : Nat, 0 < period → phase < period →
    square phase period = if phase ≤ period / 2 then 1023 else 0) ∧
  (∀ period : Nat, 0 < period →
    ((List.range period).filter fun phase => square phase period == 1023).length = period / 2 + 1 ∧
    period < 2 * (period / 2 + 1)) ∧
  square 0 1 = 1023 ∧ square 0 2 = 1023 ∧ square 1 2 = 1023 ∧
  (List.range 3).map (fun phase => square phase 3) = [1023, 1023, 0] ∧
  (List.range 10).map (fun phase => square phase 10) = [1023, 1023, 1023, 1023, 1023, 1023, 0, 0, 0, 0]

/-- 40_waveform.md rule R95: the formula; 0 at phase 0; non-decreasing; strictly below `HIGH`; the largest value,
`1023 - ceil(1023/period)`, which is 1022 from period 1023 upward. -/
def Obligations.SawRisesFromZeroBelowHigh : Prop :=
  (∀ (phase period : Nat) (pos : 0 < period), saw phase period pos = 1023 * phase / period) ∧
  (∀ (period : Nat) (pos : 0 < period), saw 0 period pos = 0) ∧
  (∀ (a b period : Nat) (pos : 0 < period), a ≤ b → b < period → saw a period pos ≤ saw b period pos) ∧
  (∀ (phase period : Nat) (pos : 0 < period), phase < period →
    saw phase period pos < 1023 ∧ saw phase period pos ≤ saw (period - 1) period pos) ∧
  (∀ (period : Nat) (pos : 0 < period),
    saw (period - 1) period pos = 1023 - (1023 + period - 1) / period ∧
    (1023 ≤ period → saw (period - 1) period pos = 1022)) ∧
  saw 0 1 (by decide) = 0 ∧ saw 1 2 (by decide) = 511 ∧
  (List.range 10).map (fun phase => saw phase 10 (by decide)) =
    [0, 102, 204, 306, 409, 511, 613, 716, 818, 920]

/-- 40_waveform.md rule R96: the two branches, the boundary phase in the rising one; never above `HIGH`; rising over
`[0, Half]`, falling after; the peak is `HIGH` at `period / 2` for an even period, and
`(1023 * (period - 1)) div period` at `Half` and `Half + 1` for an odd one. -/
def Obligations.TriangleRisesThenFalls : Prop :=
  (∀ (phase period : Nat) (pos : 0 < period), phase < period →
    triangle phase period pos =
      if phase ≤ period / 2 then 1023 * (2 * phase) / period else 1023 * (2 * (period - phase)) / period) ∧
  (∀ (phase period : Nat) (pos : 0 < period), phase < period → triangle phase period pos ≤ 1023) ∧
  (∀ (a b period : Nat) (pos : 0 < period), a ≤ b → b ≤ period / 2 →
    triangle a period pos ≤ triangle b period pos) ∧
  (∀ (a b period : Nat) (pos : 0 < period), period / 2 < a → a ≤ b → b < period →
    triangle b period pos ≤ triangle a period pos) ∧
  (∀ (period : Nat) (pos : 0 < period), period % 2 = 0 → triangle (period / 2) period pos = 1023) ∧
  (∀ (period : Nat) (pos : 0 < period), period % 2 = 1 →
    triangle (period / 2) period pos = 1023 * (period - 1) / period ∧
    (1 < period → triangle (period / 2 + 1) period pos = 1023 * (period - 1) / period) ∧
    ∀ phase, phase < period → triangle phase period pos ≤ 1023 * (period - 1) / period) ∧
  (∀ (period : Nat) (pos : 0 < period), triangle 0 period pos = 0) ∧
  (List.range 4).map (fun phase => triangle phase 4 (by decide)) = [0, 511, 1023, 511] ∧
  (List.range 3).map (fun phase => triangle phase 3 (by decide)) = [0, 682, 682]

/-- 40_waveform.md rule R98: the advance, which stays below the period; from phase 0 the phases are
`0, 1, ..., period-1, 0, 1, ...`. -/
def Obligations.PhaseAdvancesModuloThePeriod : Prop :=
  (∀ phase period : Period, phase.toNat < period.toNat →
    (advance phase period).toNat = (if phase.toNat + 1 ≥ period.toNat then 0 else phase.toNat + 1) ∧
    (advance phase period).toNat < period.toNat) ∧
  (∀ (period : Period) (k : Nat), 0 < period.toNat →
    ((fun phase => advance phase period)^[k] 0#16).toNat = k % period.toNat)

/-- 40_waveform.md rule R99: a disabled voice outputs 0 and is unchanged; an enabled one outputs the sample of the
phase before the advance, and only its phase changes. -/
def Obligations.VoiceStepOutputsThenAdvances : Prop :=
  (∀ v : Voice, v.enabled = false → voiceStep v = .ok (0, v)) ∧
  (∀ (v : Voice) (pos : 0 < v.period.toNat), v.enabled = true → v.phase.toNat < v.period.toNat →
    voiceStep v = .ok (wave v.waveform v.phase.toNat v.period.toNat pos,
      { v with phase := advance v.phase v.period })) ∧
  voiceStep ⟨true, .triangle, 3#16, 4#16, 0#8⟩ = .ok (511, ⟨true, .triangle, 0#16, 4#16, 0#8⟩)

/-- 40_waveform.md rule R100, which the spec derives: every voice of a well-formed state outputs at most `HIGH`, and
steps to a voice that meets the invariant again. -/
def Obligations.VoiceOutputIsAtMostHigh : Prop :=
  ∀ (s : State) (i : Slot), s.WellFormed →
    ∃ (o : Nat) (v : Voice), voiceStep (s.bank.get i) = .ok (o, v) ∧ o ≤ 1023 ∧ o < 2 ^ 10 ∧ v.WellFormed

/-- 41_tick_mix_enqueue.md rule R112, which the spec derives: the sum of a well-formed bank is at most 4092, so
`Sat12` returns it unchanged; four Square voices in their first half reach it. -/
def Obligations.MixNeedsNoClamp : Prop :=
  (∀ s : State, s.WellFormed →
    ∃ (acc : Nat) (bank : VoiceBank), mix s.bank = .ok (acc, bank) ∧ acc ≤ 4092 ∧ (sat12 acc).toNat = acc) ∧
  (∀ b : VoiceBank,
    (∀ i : Slot, (b.get i).enabled = true ∧ (b.get i).waveform = .square ∧ 0 < (b.get i).period.toNat ∧
      (b.get i).phase.toNat < (b.get i).period.toNat ∧ (b.get i).phase.toNat ≤ (b.get i).period.toNat / 2) →
    ∃ bank : VoiceBank, mix b = .ok (4092, bank))

/-- 41_tick_mix_enqueue.md rule R110: the slots do not interact and no result depends on their order: a bank with its
slots permuted mixes to the same sum, and to the permuted new bank. -/
def Obligations.MixIgnoresTheOrderOfSlots : Prop :=
  ∀ (b b' c : VoiceBank) (σ : Equiv.Perm Slot) (acc : Nat),
    (∀ i : Slot, b'.get i = b.get (σ i)) → mix b = .ok (acc, c) →
    ∃ c' : VoiceBank, mix b' = .ok (acc, c') ∧ ∀ i : Slot, c'.get i = c.get (σ i)

/-- 41_tick_mix_enqueue.md rule R111. -/
def Obligations.SampleSaturatesAtFullScale : Prop :=
  ∀ n : Nat, (sat12 n).toNat = min n 4095

/-- 43_transmit.md rule R151: the prefix in bits 15..12, the sample in bits 11..0. -/
def Obligations.DacWordIsPrefixAndSample : Prop :=
  (∀ s : Sample,
    dacWord s = 0x3000#16 ||| (s.setWidth 16 &&& 0x0FFF#16) ∧
    (dacWord s).extractLsb' 12 4 = 0b0011#4 ∧ (dacWord s).extractLsb' 0 12 = s) ∧
  dacWord 0#12 = 0x3000#16 ∧ dacWord 511#12 = 0x31FF#16 ∧ dacWord 1023#12 = 0x33FF#16 ∧
  dacWord 4092#12 = 0x3FFC#16 ∧ dacWord 4095#12 = 0x3FFF#16

/-- The sentence that 43_transmit.md rule R151 derives from 10_state.md rule R38: the mask changes nothing and the
prefix never overlaps the sample. -/
def Obligations.DacWordIsInTheCommandRange : Prop :=
  ∀ s : Sample, s.setWidth 16 &&& 0x0FFF#16 = s.setWidth 16 ∧ (dacWord s).toNat = 0x3000 + s.toNat ∧
    0x3000 ≤ (dacWord s).toNat ∧ (dacWord s).toNat ≤ 0x3FFF

/-! ### The queues (20_memory.md) -/

/-- 20_memory.md rules R52 to R54: the four primitives. -/
def Obligations.QueuePrimitives : Prop :=
  ∀ s : State,
    (∀ x : Sample, s.sq.length < s.params.sqCap → s.sqPush x = ({ s with sq := s.sq ++ [x] }, .ok)) ∧
    (∀ x : Sample, ¬ s.sq.length < s.params.sqCap → s.sqPush x = (s, .full)) ∧
    (s.sq = [] → s.sqPop = (none, s)) ∧
    (∀ (x : Sample) (q : List Sample), s.sq = x :: q → s.sqPop = (some x, { s with sq := q })) ∧
    (∀ b : Byte, s.cq.length < s.params.cqCap → s.cqPush b = ({ s with cq := s.cq ++ [b] }, .ok)) ∧
    (∀ b : Byte, ¬ s.cq.length < s.params.cqCap → s.cqPush b = (s, .full)) ∧
    (s.cq = [] → s.cqPop = (none, s)) ∧
    (∀ (b : Byte) (q : List Byte), s.cq = b :: q → s.cqPop = (some b, { s with cq := q }))

/-- 42_control.md rule R139, which the spec derives: a burst of `RXBYTE`s with no `CPOP` among them queues the first
bytes that fit and drops the rest, never a queued one; nothing else changes. Stated for every burst, so also for each
of its beginnings: the label after the last byte is `rx_accept` exactly while the bytes fit. -/
def Obligations.BurstKeepsTheFirstBytesThatFit : Prop :=
  ∀ (s : State) (ds : List Byte), s.WellFormed → ds ≠ [] →
    runWords (ds.map fun d => 0x60000000#32 ||| d.setWidth 32) s = .next
      { s with cq := s.cq ++ ds.take (s.params.cqCap - s.cq.length)
               label := some (if s.cq.length + ds.length ≤ s.params.cqCap then .rxAccept else .rxDrop) }

/-! ### Who touches what -/

/-- 10_state.md rule R28: which operation writes which fields of the VoiceBank. `NOTEON` writes the slot that `Alloc`
gives (42_control.md rule R134), unless it is rejected; `NOTEOFF` the slot that its search finds (rule R135), if it
finds one. -/
def Obligations.VoiceBankIsWrittenAsTheTableSays : Prop :=
  ∀ (s t : State) (i : Instr), exec i s = .next t →
    (i = .tick → s.stall = true → t.bank = s.bank) ∧
    (i = .tick → s.stall = false → ∀ k : Slot, t.bank.get k =
      { s.bank.get k with
        phase := if (s.bank.get k).enabled = true then advance (s.bank.get k).phase (s.bank.get k).period
                 else (s.bank.get k).phase }) ∧
    (∀ n v, i = .noteon n v →
      (s.params.period n = 0#16 → t.bank = s.bank) ∧
      (s.params.period n ≠ 0#16 →
        t.bank.get (s.alloc n).slot = ⟨true, s.program, 0#16, s.params.period n, n⟩ ∧
        ∀ j : Slot, j ≠ (s.alloc n).slot → t.bank.get j = s.bank.get j)) ∧
    (∀ n, i = .noteoff n →
      (s.bank.sounding n = none → t.bank = s.bank) ∧
      (∀ k : Slot, s.bank.sounding n = some k →
        t.bank.get k = { s.bank.get k with enabled := false } ∧
        ∀ j : Slot, j ≠ k → t.bank.get j = s.bank.get j)) ∧
    ((∀ n v, i ≠ .noteon n v) → (∀ n, i ≠ .noteoff n) → i ≠ .tick → t.bank = s.bank)

/-- 10_state.md rule R32: `stall` is 1 exactly when the most recent enqueue attempt by `TICK` failed because the
SampleQueue was full; nothing but `TICK` and reset changes it. -/
def Obligations.StallIsTheLastEnqueueFailure : Prop :=
  (∀ (s t : State) (i : Instr), exec i s = .next t →
    (i = .tick → (t.stall = true ↔ s.params.sqCap ≤ s.sq.length)) ∧ (i ≠ .tick → t.stall = s.stall)) ∧
  (∀ s : State, (applyReset s).stall = false)

/-- 10_state.md rule R33: `held` is written by a computing tick and never otherwise; outside a stall its value has
no effect on any operation. -/
def Obligations.HeldMattersOnlyInAStall : Prop :=
  (∀ (s t : State) (i : Instr), exec i s = .next t → t.held ≠ s.held → i = .tick ∧ s.stall = false) ∧
  (∀ (s : State) (i : Instr) (x : Sample), s.WellFormed → s.stall = false →
    ∃ t : State, exec i s = .next t ∧
      exec i { s with held := x } = .next (if i = .tick then t else { t with held := x }))

/-- 60_exceptions.md rule R170, which the spec derives: while stalled every operation but `TICK` behaves exactly as
when not stalled. -/
def Obligations.OnlyTickReadsStall : Prop :=
  ∀ (s : State) (i : Instr) (b : Bool), i ≠ .tick →
    ∃ t : State, exec i s = .next t ∧ exec i { s with stall := b } = .next { t with stall := b }

/-- 60_exceptions.md rule R169, which the spec derives: stall entry is precise: the state after it is the state after
a successful `TICK` except that `sq` lacks the new sample and `stall = 1`. (The successful tick is that of the same
block with a larger capacity.) -/
def Obligations.StallEntryIsPrecise : Prop :=
  ∀ (s : State) (cap : Nat), s.WellFormed → s.stall = false → s.sq.length = s.params.sqCap → s.sq.length < cap →
    ∃ t u : State, exec .tick s = .next t ∧
      exec .tick { s with params := { s.params with sqCap := cap } } = .next u ∧
      u.stall = false ∧ u.sq = s.sq ++ [t.held] ∧
      t = { u with params := s.params, sq := s.sq, stall := true, label := some (.compute t.held .full) }

/-- 00_scope.md rule R10, 43_transmit.md rule R152: only `TX` emits on the DAC stream, exactly one transfer of the
sample it pops; only `CPOP` emits on the control-delivery stream, exactly the byte it pops; streams only grow. -/
def Obligations.OnlyTxAndCpopEmit : Prop :=
  ∀ (s t : State) (i : Instr), exec i s = .next t →
    (t.dac = s.dac ∨ (i = .tx ∧ ∃ r, s.sq = r :: t.sq ∧
      t.dac = s.dac ++ [.ssAssert, .byte (highByte (dacWord r)), .byte (lowByte (dacWord r)), .ssDeassert])) ∧
    (t.ctl = s.ctl ∨ (i = .cpop ∧ ∃ b, s.cq = b :: t.cq ∧ t.ctl = s.ctl ++ [.ctl b]))

/-- 60_exceptions.md rule R173: the discipline of who touches what, by the agent that issues the operation. -/
def Obligations.AgentsTouchOnlyTheirOwn : Prop :=
  ∀ (s t : State) (i : Instr), exec i s = .next t →
    (t.bank ≠ s.bank → issuer i = .control ∨ issuer i = .synthesis) ∧
    (issuer i = .synthesis → ∀ k : Slot, ∃ ph, t.bank.get k = { s.bank.get k with phase := ph }) ∧
    (t.program ≠ s.program → issuer i = .control) ∧ (t.rr ≠ s.rr → issuer i = .control) ∧
    (t.sq ≠ s.sq → issuer i = .synthesis ∨ issuer i = .transmission) ∧
    (t.stall ≠ s.stall → issuer i = .synthesis) ∧ (t.held ≠ s.held → issuer i = .synthesis) ∧
    (t.cq ≠ s.cq → issuer i = .ingestion ∨ issuer i = .control)

/-- 10_state.md rule R36: the parameters never change, whatever the environment does. -/
def Obligations.ParametersNeverChange : Prop :=
  ∀ s t : State, step s = .next t → t.params = s.params

/-- 10_state.md rules R28, R39: the waveform, phase, period and note of a disabled slot are read by no operation: two
states that differ in them alone step alike, and go on differing in at most that slot while it stays disabled. -/
def Obligations.DisabledVoiceIsNotRead : Prop :=
  ∀ (s : State) (i : Instr) (k : Slot) (v v' : Voice), s.WellFormed → v.enabled = false → v'.enabled = false →
    (s.bank.get k).enabled = false →
    ∃ t t' : State,
      exec i { s with bank := s.bank.set k v } = .next t ∧ exec i { s with bank := s.bank.set k v' } = .next t' ∧
      (t' = t ∨ (t.bank.get k = v ∧ t' = { t with bank := t.bank.set k v' }))

/-- 60_exceptions.md rules R161 to R164, R166: which operation raises which condition, and when; each belongs to a
different operation. -/
def Obligations.EachConditionBelongsToOneOperation : Prop :=
  ∀ (s t : State) (i : Instr) (l : Label), i.wellFormed = true → exec i s = .next t → t.label = some l →
    (l.condition = some .sqFull ↔ i = .tick ∧ s.params.sqCap ≤ s.sq.length) ∧
    (l.condition = some .cqFull ↔ (∃ b, i = .rxbyte b) ∧ s.params.cqCap ≤ s.cq.length) ∧
    (l.condition = some .badPeriod ↔ ∃ n v, i = .noteon n v ∧ s.params.period n = 0#16) ∧
    l.condition ≠ some .unrecognised

/-! ### Invariants and whole-machine rules -/

/-- 10_state.md rule R41, 42_control.md rules R133 to R135: after a `NOTEON` with a valid period exactly one slot
sounds its pitch; after a `NOTEOFF` none does. -/
def Obligations.PitchSoundsInOneSlotOrNone : Prop :=
  ∀ (s : State) (n : Pitch) (v : Velocity), s.WellFormed →
    (s.params.period n ≠ 0#16 → ∃ t : State, exec (.noteon n v) s = .next t ∧
      ∃! i : Slot, (t.bank.get i).enabled = true ∧ (t.bank.get i).note = n) ∧
    ∃ t : State, exec (.noteoff n) s = .next t ∧
      ∀ i : Slot, ¬((t.bank.get i).enabled = true ∧ (t.bank.get i).note = n)

/-- 10_state.md rule R40: every operation maps a well-formed state to a well-formed state; it always answers one. -/
def Obligations.EveryOperationKeepsWellFormedness : Prop :=
  ∀ (s : State) (i : Instr), s.WellFormed → ∃ t : State, exec i s = .next t ∧ t.WellFormed

/-- 60_exceptions.md rule R177, 43_transmit.md rule R153: from every well-formed state with a well-bracketed DAC
stream, whatever the environment presents, the step goes on to another. -/
def Obligations.EveryStepKeepsSoundness : Prop :=
  ∀ s : State, s.Sound → ∃ t : State, step s = .next t ∧ t.Sound

/-- 10_state.md rule R40: the reset state is well-formed, for all parameters the spec admits; its DAC stream, being
empty, is well bracketed. -/
def Obligations.ResetStateIsSound : Prop :=
  (∀ (p : Params) (inputs : List Input), p.WellFormed → ((State.resetWith p).withInputs inputs).Sound) ∧
  State.reset.Sound

/-- 60_exceptions.md rule R177: no state reachable from reset stops the machine. -/
def Obligations.ReachableStatesGoOn : Prop :=
  ∀ s : State, Reachable s → s.Sound ∧ GoesOn s

/-- 41_tick_mix_enqueue.md rules R114, R115, 43_transmit.md rule R153, which the spec derives: no sample is dropped,
duplicated or reordered: along every run, the samples sent, queued and held in a stall are those before the run
followed by those its computing ticks computed, in order. -/
def Obligations.NoSampleIsDroppedDuplicatedOrReordered : Prop :=
  ∀ (ws : List OpWord) (s : State), s.Sound →
    ∃ t : State, runWords ws s = .next t ∧ t.Sound ∧
      t.accountedSamples = s.accountedSamples ++ computedAlong ws s

/-- 20_memory.md rule R64, 42_control.md rule R140, which the spec derives: the delivered bytes are the received bytes
minus the dropped ones, in order. -/
def Obligations.AcceptedBytesAreDeliveredInOrder : Prop :=
  ∀ (ws : List OpWord) (s : State), s.WellFormed →
    ∃ t : State, runWords ws s = .next t ∧ t.accountedBytes = s.accountedBytes ++ acceptedAlong ws s

/-- 41_tick_mix_enqueue.md rule R116, which the spec derives: each overflow event costs exactly one tick: the ticks of
a run are its computing ticks and one retry tick for each failed push before it (a stall at the start counts for one,
a stall at the end is yet to be paid). -/
def Obligations.EachOverflowCostsOneTick : Prop :=
  ∀ (ws : List OpWord) (s : State), s.WellFormed →
    ∃ t : State, runWords ws s = .next t ∧
      ticksIn ws + t.stall.toNat = (computedAlong ws s).length + overflowsAlong ws s + s.stall.toNat

/-- 41_tick_mix_enqueue.md rule R115, which the spec derives: in a stall with a full queue any number of `TICK`s
change nothing but the label; after one `TX` the next `TICK` appends the stale sample and clears `stall`. -/
def Obligations.StaleSampleIsRetriedUntilDelivered : Prop :=
  ∀ s : State, s.WellFormed → s.stall = true → s.sq.length = s.params.sqCap →
    (∀ n : Nat, runWords (List.replicate (n + 1) 0x10000000#32) s =
      .next { s with label := some (.retry s.held .full) }) ∧
    (∀ (r : Sample) (q : List Sample), s.sq = r :: q →
      runWords [0x20000000#32, 0x10000000#32] s = .next
        { s with sq := q ++ [s.held]
                 stall := false
                 dac := s.dac ++
                   [.ssAssert, .byte (highByte (dacWord r)), .byte (lowByte (dacWord r)), .ssDeassert]
                 label := some (.retry s.held .ok) })

/-- 41_tick_mix_enqueue.md rule R117, which the spec derives: `TICK`s with no `TX` among them fill the queue and then
stall for ever, while the block keeps answering; nothing is sent. -/
def Obligations.UndrainedQueueFillsThenStalls : Prop :=
  ∀ (s : State) (n : Nat), s.WellFormed →
    ∃ t : State, runWords (List.replicate (n + 1) 0x10000000#32) s = .next t ∧
      t.sq.length = min (s.sq.length + n + 1) s.params.sqCap ∧
      (t.stall = true ↔ s.params.sqCap < s.sq.length + n + 1) ∧
      s.sq <+: t.sq ∧ t.dac = s.dac
end

