-- ==== Sys2Proof/Laws/Encoding.lean ====
section
/-! SUPPORT. The fields of an assembled word (30_encoding.md rule R71). -/

namespace Sys2Proof

@[simp] theorem opField_assembleWord (op : BitVec 4) (a b : BitVec 8) : opField (assembleWord op a b) = op := by
  apply BitVec.eq_of_getLsbD_eq
  intro i hi
  simp only [opField, assembleWord, BitVec.getLsbD_extractLsb', BitVec.getLsbD_append]
  simp [show ¬ 28 + i < 8 by omega, show ¬ 28 + i - 8 < 8 by omega, show ¬ 28 + i - 8 - 8 < 12 by omega,
    show 28 + i - 8 - 8 - 12 = i by omega, hi]

@[simp] theorem rsvField_assembleWord (op : BitVec 4) (a b : BitVec 8) : rsvField (assembleWord op a b) = 0#12 := by
  apply BitVec.eq_of_getLsbD_eq
  intro i hi
  simp only [rsvField, assembleWord, BitVec.getLsbD_extractLsb', BitVec.getLsbD_append]
  simp [show ¬ 16 + i < 8 by omega, show ¬ 16 + i - 8 < 8 by omega, show 16 + i - 8 - 8 < 12 by omega]

@[simp] theorem fieldA_assembleWord (op : BitVec 4) (a b : BitVec 8) : fieldA (assembleWord op a b) = a := by
  apply BitVec.eq_of_getLsbD_eq
  intro i hi
  simp only [fieldA, assembleWord, BitVec.getLsbD_extractLsb', BitVec.getLsbD_append]
  simp [show ¬ 8 + i < 8 by omega, show 8 + i - 8 = i by omega, hi]

@[simp] theorem fieldB_assembleWord (op : BitVec 4) (a b : BitVec 8) : fieldB (assembleWord op a b) = b := by
  apply BitVec.eq_of_getLsbD_eq
  intro i hi
  simp only [fieldB, assembleWord, BitVec.getLsbD_extractLsb', BitVec.getLsbD_append]
  simp [hi]

/-- A word is its four fields. -/
theorem assembleWord_fields (w : OpWord) (h : rsvField w = 0#12) :
    assembleWord (opField w) (fieldA w) (fieldB w) = w := by
  apply BitVec.eq_of_getLsbD_eq
  intro i hi
  have hz : ∀ j, j < 12 → w.getLsbD (16 + j) = false := by
    intro j hj
    have := congrArg (fun v : BitVec 12 => v.getLsbD j) h
    simpa [rsvField, BitVec.getLsbD_extractLsb', hj] using this
  simp only [assembleWord, BitVec.getLsbD_append, opField, fieldA, fieldB, BitVec.getLsbD_extractLsb']
  by_cases h8 : i < 8
  · simp [h8]
  by_cases h16 : i - 8 < 8
  · simp [h8, h16, show 8 + (i - 8) = i by omega]
  by_cases h28 : i - 8 - 8 < 12
  · have := hz (i - 8 - 8) h28
    rw [show 16 + (i - 8 - 8) = i by omega] at this
    simp [h8, h16, h28, this]
  · simp [h8, h16, h28, show 28 + (i - 8 - 8 - 12) = i by omega, show i - 8 - 8 - 12 < 4 by omega]

end Sys2Proof
end

