-- ==== Sys2Proof/Laws/State.lean ====
section
/-! SUPPORT. One lemma per field per update of State, so that no proof unfolds a record update; reads and writes of
the VoiceBank by slot; the shared operations as compositions of the updates. -/

namespace Sys2Proof.Machine

/-! ### `withBank` -/

@[simp] theorem State.withBank_params (s : State) (b : VoiceBank) : (s.withBank b).params = s.params := rfl
@[simp] theorem State.withBank_bank (s : State) (b : VoiceBank) : (s.withBank b).bank = b := rfl
@[simp] theorem State.withBank_program (s : State) (b : VoiceBank) : (s.withBank b).program = s.program := rfl
@[simp] theorem State.withBank_rr (s : State) (b : VoiceBank) : (s.withBank b).rr = s.rr := rfl
@[simp] theorem State.withBank_stall (s : State) (b : VoiceBank) : (s.withBank b).stall = s.stall := rfl
@[simp] theorem State.withBank_held (s : State) (b : VoiceBank) : (s.withBank b).held = s.held := rfl
@[simp] theorem State.withBank_sq (s : State) (b : VoiceBank) : (s.withBank b).sq = s.sq := rfl
@[simp] theorem State.withBank_cq (s : State) (b : VoiceBank) : (s.withBank b).cq = s.cq := rfl
@[simp] theorem State.withBank_dac (s : State) (b : VoiceBank) : (s.withBank b).dac = s.dac := rfl
@[simp] theorem State.withBank_ctl (s : State) (b : VoiceBank) : (s.withBank b).ctl = s.ctl := rfl
@[simp] theorem State.withBank_label (s : State) (b : VoiceBank) : (s.withBank b).label = s.label := rfl
@[simp] theorem State.withBank_inputs (s : State) (b : VoiceBank) : (s.withBank b).inputs = s.inputs := rfl

/-! ### `withProgram` -/

@[simp] theorem State.withProgram_params (s : State) (w : Waveform) : (s.withProgram w).params = s.params := rfl
@[simp] theorem State.withProgram_bank (s : State) (w : Waveform) : (s.withProgram w).bank = s.bank := rfl
@[simp] theorem State.withProgram_program (s : State) (w : Waveform) : (s.withProgram w).program = w := rfl
@[simp] theorem State.withProgram_rr (s : State) (w : Waveform) : (s.withProgram w).rr = s.rr := rfl
@[simp] theorem State.withProgram_stall (s : State) (w : Waveform) : (s.withProgram w).stall = s.stall := rfl
@[simp] theorem State.withProgram_held (s : State) (w : Waveform) : (s.withProgram w).held = s.held := rfl
@[simp] theorem State.withProgram_sq (s : State) (w : Waveform) : (s.withProgram w).sq = s.sq := rfl
@[simp] theorem State.withProgram_cq (s : State) (w : Waveform) : (s.withProgram w).cq = s.cq := rfl
@[simp] theorem State.withProgram_dac (s : State) (w : Waveform) : (s.withProgram w).dac = s.dac := rfl
@[simp] theorem State.withProgram_ctl (s : State) (w : Waveform) : (s.withProgram w).ctl = s.ctl := rfl
@[simp] theorem State.withProgram_label (s : State) (w : Waveform) : (s.withProgram w).label = s.label := rfl
@[simp] theorem State.withProgram_inputs (s : State) (w : Waveform) : (s.withProgram w).inputs = s.inputs := rfl

/-! ### `withRr` -/

@[simp] theorem State.withRr_params (s : State) (i : Slot) : (s.withRr i).params = s.params := rfl
@[simp] theorem State.withRr_bank (s : State) (i : Slot) : (s.withRr i).bank = s.bank := rfl
@[simp] theorem State.withRr_program (s : State) (i : Slot) : (s.withRr i).program = s.program := rfl
@[simp] theorem State.withRr_rr (s : State) (i : Slot) : (s.withRr i).rr = i := rfl
@[simp] theorem State.withRr_stall (s : State) (i : Slot) : (s.withRr i).stall = s.stall := rfl
@[simp] theorem State.withRr_held (s : State) (i : Slot) : (s.withRr i).held = s.held := rfl
@[simp] theorem State.withRr_sq (s : State) (i : Slot) : (s.withRr i).sq = s.sq := rfl
@[simp] theorem State.withRr_cq (s : State) (i : Slot) : (s.withRr i).cq = s.cq := rfl
@[simp] theorem State.withRr_dac (s : State) (i : Slot) : (s.withRr i).dac = s.dac := rfl
@[simp] theorem State.withRr_ctl (s : State) (i : Slot) : (s.withRr i).ctl = s.ctl := rfl
@[simp] theorem State.withRr_label (s : State) (i : Slot) : (s.withRr i).label = s.label := rfl
@[simp] theorem State.withRr_inputs (s : State) (i : Slot) : (s.withRr i).inputs = s.inputs := rfl

/-! ### `withStall` -/

@[simp] theorem State.withStall_params (s : State) (b : Bool) : (s.withStall b).params = s.params := rfl
@[simp] theorem State.withStall_bank (s : State) (b : Bool) : (s.withStall b).bank = s.bank := rfl
@[simp] theorem State.withStall_program (s : State) (b : Bool) : (s.withStall b).program = s.program := rfl
@[simp] theorem State.withStall_rr (s : State) (b : Bool) : (s.withStall b).rr = s.rr := rfl
@[simp] theorem State.withStall_stall (s : State) (b : Bool) : (s.withStall b).stall = b := rfl
@[simp] theorem State.withStall_held (s : State) (b : Bool) : (s.withStall b).held = s.held := rfl
@[simp] theorem State.withStall_sq (s : State) (b : Bool) : (s.withStall b).sq = s.sq := rfl
@[simp] theorem State.withStall_cq (s : State) (b : Bool) : (s.withStall b).cq = s.cq := rfl
@[simp] theorem State.withStall_dac (s : State) (b : Bool) : (s.withStall b).dac = s.dac := rfl
@[simp] theorem State.withStall_ctl (s : State) (b : Bool) : (s.withStall b).ctl = s.ctl := rfl
@[simp] theorem State.withStall_label (s : State) (b : Bool) : (s.withStall b).label = s.label := rfl
@[simp] theorem State.withStall_inputs (s : State) (b : Bool) : (s.withStall b).inputs = s.inputs := rfl

/-! ### `withHeld` -/

@[simp] theorem State.withHeld_params (s : State) (x : Sample) : (s.withHeld x).params = s.params := rfl
@[simp] theorem State.withHeld_bank (s : State) (x : Sample) : (s.withHeld x).bank = s.bank := rfl
@[simp] theorem State.withHeld_program (s : State) (x : Sample) : (s.withHeld x).program = s.program := rfl
@[simp] theorem State.withHeld_rr (s : State) (x : Sample) : (s.withHeld x).rr = s.rr := rfl
@[simp] theorem State.withHeld_stall (s : State) (x : Sample) : (s.withHeld x).stall = s.stall := rfl
@[simp] theorem State.withHeld_held (s : State) (x : Sample) : (s.withHeld x).held = x := rfl
@[simp] theorem State.withHeld_sq (s : State) (x : Sample) : (s.withHeld x).sq = s.sq := rfl
@[simp] theorem State.withHeld_cq (s : State) (x : Sample) : (s.withHeld x).cq = s.cq := rfl
@[simp] theorem State.withHeld_dac (s : State) (x : Sample) : (s.withHeld x).dac = s.dac := rfl
@[simp] theorem State.withHeld_ctl (s : State) (x : Sample) : (s.withHeld x).ctl = s.ctl := rfl
@[simp] theorem State.withHeld_label (s : State) (x : Sample) : (s.withHeld x).label = s.label := rfl
@[simp] theorem State.withHeld_inputs (s : State) (x : Sample) : (s.withHeld x).inputs = s.inputs := rfl

/-! ### `withSq` -/

@[simp] theorem State.withSq_params (s : State) (q : List Sample) : (s.withSq q).params = s.params := rfl
@[simp] theorem State.withSq_bank (s : State) (q : List Sample) : (s.withSq q).bank = s.bank := rfl
@[simp] theorem State.withSq_program (s : State) (q : List Sample) : (s.withSq q).program = s.program := rfl
@[simp] theorem State.withSq_rr (s : State) (q : List Sample) : (s.withSq q).rr = s.rr := rfl
@[simp] theorem State.withSq_stall (s : State) (q : List Sample) : (s.withSq q).stall = s.stall := rfl
@[simp] theorem State.withSq_held (s : State) (q : List Sample) : (s.withSq q).held = s.held := rfl
@[simp] theorem State.withSq_sq (s : State) (q : List Sample) : (s.withSq q).sq = q := rfl
@[simp] theorem State.withSq_cq (s : State) (q : List Sample) : (s.withSq q).cq = s.cq := rfl
@[simp] theorem State.withSq_dac (s : State) (q : List Sample) : (s.withSq q).dac = s.dac := rfl
@[simp] theorem State.withSq_ctl (s : State) (q : List Sample) : (s.withSq q).ctl = s.ctl := rfl
@[simp] theorem State.withSq_label (s : State) (q : List Sample) : (s.withSq q).label = s.label := rfl
@[simp] theorem State.withSq_inputs (s : State) (q : List Sample) : (s.withSq q).inputs = s.inputs := rfl

/-! ### `withCq` -/

@[simp] theorem State.withCq_params (s : State) (q : List Byte) : (s.withCq q).params = s.params := rfl
@[simp] theorem State.withCq_bank (s : State) (q : List Byte) : (s.withCq q).bank = s.bank := rfl
@[simp] theorem State.withCq_program (s : State) (q : List Byte) : (s.withCq q).program = s.program := rfl
@[simp] theorem State.withCq_rr (s : State) (q : List Byte) : (s.withCq q).rr = s.rr := rfl
@[simp] theorem State.withCq_stall (s : State) (q : List Byte) : (s.withCq q).stall = s.stall := rfl
@[simp] theorem State.withCq_held (s : State) (q : List Byte) : (s.withCq q).held = s.held := rfl
@[simp] theorem State.withCq_sq (s : State) (q : List Byte) : (s.withCq q).sq = s.sq := rfl
@[simp] theorem State.withCq_cq (s : State) (q : List Byte) : (s.withCq q).cq = q := rfl
@[simp] theorem State.withCq_dac (s : State) (q : List Byte) : (s.withCq q).dac = s.dac := rfl
@[simp] theorem State.withCq_ctl (s : State) (q : List Byte) : (s.withCq q).ctl = s.ctl := rfl
@[simp] theorem State.withCq_label (s : State) (q : List Byte) : (s.withCq q).label = s.label := rfl
@[simp] theorem State.withCq_inputs (s : State) (q : List Byte) : (s.withCq q).inputs = s.inputs := rfl

/-! ### `withDac` -/

@[simp] theorem State.withDac_params (s : State) (es : List DacEvent) : (s.withDac es).params = s.params := rfl
@[simp] theorem State.withDac_bank (s : State) (es : List DacEvent) : (s.withDac es).bank = s.bank := rfl
@[simp] theorem State.withDac_program (s : State) (es : List DacEvent) : (s.withDac es).program = s.program := rfl
@[simp] theorem State.withDac_rr (s : State) (es : List DacEvent) : (s.withDac es).rr = s.rr := rfl
@[simp] theorem State.withDac_stall (s : State) (es : List DacEvent) : (s.withDac es).stall = s.stall := rfl
@[simp] theorem State.withDac_held (s : State) (es : List DacEvent) : (s.withDac es).held = s.held := rfl
@[simp] theorem State.withDac_sq (s : State) (es : List DacEvent) : (s.withDac es).sq = s.sq := rfl
@[simp] theorem State.withDac_cq (s : State) (es : List DacEvent) : (s.withDac es).cq = s.cq := rfl
@[simp] theorem State.withDac_dac (s : State) (es : List DacEvent) : (s.withDac es).dac = es := rfl
@[simp] theorem State.withDac_ctl (s : State) (es : List DacEvent) : (s.withDac es).ctl = s.ctl := rfl
@[simp] theorem State.withDac_label (s : State) (es : List DacEvent) : (s.withDac es).label = s.label := rfl
@[simp] theorem State.withDac_inputs (s : State) (es : List DacEvent) : (s.withDac es).inputs = s.inputs := rfl

/-! ### `withCtl` -/

@[simp] theorem State.withCtl_params (s : State) (es : List CtlEvent) : (s.withCtl es).params = s.params := rfl
@[simp] theorem State.withCtl_bank (s : State) (es : List CtlEvent) : (s.withCtl es).bank = s.bank := rfl
@[simp] theorem State.withCtl_program (s : State) (es : List CtlEvent) : (s.withCtl es).program = s.program := rfl
@[simp] theorem State.withCtl_rr (s : State) (es : List CtlEvent) : (s.withCtl es).rr = s.rr := rfl
@[simp] theorem State.withCtl_stall (s : State) (es : List CtlEvent) : (s.withCtl es).stall = s.stall := rfl
@[simp] theorem State.withCtl_held (s : State) (es : List CtlEvent) : (s.withCtl es).held = s.held := rfl
@[simp] theorem State.withCtl_sq (s : State) (es : List CtlEvent) : (s.withCtl es).sq = s.sq := rfl
@[simp] theorem State.withCtl_cq (s : State) (es : List CtlEvent) : (s.withCtl es).cq = s.cq := rfl
@[simp] theorem State.withCtl_dac (s : State) (es : List CtlEvent) : (s.withCtl es).dac = s.dac := rfl
@[simp] theorem State.withCtl_ctl (s : State) (es : List CtlEvent) : (s.withCtl es).ctl = es := rfl
@[simp] theorem State.withCtl_label (s : State) (es : List CtlEvent) : (s.withCtl es).label = s.label := rfl
@[simp] theorem State.withCtl_inputs (s : State) (es : List CtlEvent) : (s.withCtl es).inputs = s.inputs := rfl

/-! ### `withInputs` -/

@[simp] theorem State.withInputs_params (s : State) (is : List Input) : (s.withInputs is).params = s.params := rfl
@[simp] theorem State.withInputs_bank (s : State) (is : List Input) : (s.withInputs is).bank = s.bank := rfl
@[simp] theorem State.withInputs_program (s : State) (is : List Input) : (s.withInputs is).program = s.program := rfl
@[simp] theorem State.withInputs_rr (s : State) (is : List Input) : (s.withInputs is).rr = s.rr := rfl
@[simp] theorem State.withInputs_stall (s : State) (is : List Input) : (s.withInputs is).stall = s.stall := rfl
@[simp] theorem State.withInputs_held (s : State) (is : List Input) : (s.withInputs is).held = s.held := rfl
@[simp] theorem State.withInputs_sq (s : State) (is : List Input) : (s.withInputs is).sq = s.sq := rfl
@[simp] theorem State.withInputs_cq (s : State) (is : List Input) : (s.withInputs is).cq = s.cq := rfl
@[simp] theorem State.withInputs_dac (s : State) (is : List Input) : (s.withInputs is).dac = s.dac := rfl
@[simp] theorem State.withInputs_ctl (s : State) (is : List Input) : (s.withInputs is).ctl = s.ctl := rfl
@[simp] theorem State.withInputs_label (s : State) (is : List Input) : (s.withInputs is).label = s.label := rfl
@[simp] theorem State.withInputs_inputs (s : State) (is : List Input) : (s.withInputs is).inputs = is := rfl

/-! ### `withLabel` -/

@[simp] theorem State.withLabel_params (s : State) (l : Label) : (s.withLabel l).params = s.params := rfl
@[simp] theorem State.withLabel_bank (s : State) (l : Label) : (s.withLabel l).bank = s.bank := rfl
@[simp] theorem State.withLabel_program (s : State) (l : Label) : (s.withLabel l).program = s.program := rfl
@[simp] theorem State.withLabel_rr (s : State) (l : Label) : (s.withLabel l).rr = s.rr := rfl
@[simp] theorem State.withLabel_stall (s : State) (l : Label) : (s.withLabel l).stall = s.stall := rfl
@[simp] theorem State.withLabel_held (s : State) (l : Label) : (s.withLabel l).held = s.held := rfl
@[simp] theorem State.withLabel_sq (s : State) (l : Label) : (s.withLabel l).sq = s.sq := rfl
@[simp] theorem State.withLabel_cq (s : State) (l : Label) : (s.withLabel l).cq = s.cq := rfl
@[simp] theorem State.withLabel_dac (s : State) (l : Label) : (s.withLabel l).dac = s.dac := rfl
@[simp] theorem State.withLabel_ctl (s : State) (l : Label) : (s.withLabel l).ctl = s.ctl := rfl
@[simp] theorem State.withLabel_label (s : State) (l : Label) : (s.withLabel l).label = some l := rfl
@[simp] theorem State.withLabel_inputs (s : State) (l : Label) : (s.withLabel l).inputs = s.inputs := rfl

/-! ### `reset` -/

@[simp] theorem State.resetWith_params (p : Params) : (State.resetWith p).params = p := rfl
@[simp] theorem State.resetWith_bank (p : Params) : (State.resetWith p).bank = VoiceBank.reset := rfl
@[simp] theorem State.resetWith_program (p : Params) : (State.resetWith p).program = .square := rfl
@[simp] theorem State.resetWith_rr (p : Params) : (State.resetWith p).rr = 0 := rfl
@[simp] theorem State.resetWith_stall (p : Params) : (State.resetWith p).stall = false := rfl
@[simp] theorem State.resetWith_held (p : Params) : (State.resetWith p).held = 0#12 := rfl
@[simp] theorem State.resetWith_sq (p : Params) : (State.resetWith p).sq = [] := rfl
@[simp] theorem State.resetWith_cq (p : Params) : (State.resetWith p).cq = [] := rfl
@[simp] theorem State.resetWith_dac (p : Params) : (State.resetWith p).dac = [] := rfl
@[simp] theorem State.resetWith_ctl (p : Params) : (State.resetWith p).ctl = [] := rfl
@[simp] theorem State.resetWith_label (p : Params) : (State.resetWith p).label = none := rfl
@[simp] theorem State.resetWith_inputs (p : Params) : (State.resetWith p).inputs = [] := rfl

/-! ### The VoiceBank by slot -/

@[simp] theorem VoiceBank.get_set_self (b : VoiceBank) (i : Slot) (v : Voice) : (b.set i v).get i = v := by
  fin_cases i <;> rfl

theorem VoiceBank.get_set_ne (b : VoiceBank) (i j : Slot) (v : Voice) (h : j ≠ i) : (b.set i v).get j = b.get j := by
  fin_cases i <;> fin_cases j <;> first | rfl | exact absurd rfl h

theorem VoiceBank.get_set (b : VoiceBank) (i j : Slot) (v : Voice) :
    (b.set i v).get j = if j = i then v else b.get j := by
  split
  · next h => rw [h, VoiceBank.get_set_self]
  · next h => exact VoiceBank.get_set_ne b i j v h

/-- Two banks with the same voice in every slot are the same bank. -/
theorem VoiceBank.ext_get {b c : VoiceBank} (h : ∀ i : Slot, b.get i = c.get i) : b = c := by
  have h0 : b.v0 = c.v0 := h 0
  have h1 : b.v1 = c.v1 := h 1
  have h2 : b.v2 = c.v2 := h 2
  have h3 : b.v3 = c.v3 := h 3
  cases b; cases c; simp_all

@[simp] theorem VoiceBank.reset_get (i : Slot) : VoiceBank.reset.get i = Voice.reset := by
  fin_cases i <;> rfl

@[simp] theorem State.voice_eq (s : State) (i : Slot) : s.voice i = s.bank.get i := rfl

/-! ### Shared operations as updates -/

@[simp] theorem State.setVoice_eq (s : State) (i : Slot) (v : Voice) : s.setVoice i v = s.withBank (s.bank.set i v) := rfl
@[simp] theorem State.enterStall_eq (s : State) : s.enterStall = s.withStall true := rfl
@[simp] theorem State.leaveStall_eq (s : State) : s.leaveStall = s.withStall false := rfl
@[simp] theorem State.emitDac_eq (s : State) (es : List DacEvent) : s.emitDac es = s.withDac (s.dac ++ es) := rfl
@[simp] theorem State.emitCtl_eq (s : State) (e : CtlEvent) : s.emitCtl e = s.withCtl (s.ctl ++ [e]) := rfl

@[simp] theorem reservedNoOp_eq (s : State) : reservedNoOp s = s.withLabel .reserved := rfl

end Sys2Proof.Machine
end

