-- ==== Sys2Proof/Laws/Operands.lean ====
section
/-! SUPPORT. What the slot searches and the allocation can answer, said once (42_control.md rules R134, R135). -/

namespace Sys2Proof.Machine

theorem mem_slots (i : Slot) : i ∈ slots := by fin_cases i <;> decide

/-- The first slot in ascending order that meets `p`. -/
theorem find_slots_eq_some {p : Slot → Bool} {i : Slot} :
    slots.find? p = some i ↔ p i = true ∧ ∀ j : Slot, j < i → p j = false := by
  cases h0 : p 0 <;> cases h1 : p 1 <;> cases h2 : p 2 <;> cases h3 : p 3 <;> fin_cases i <;>
    simp [slots, List.find?, h0, h1, h2, h3, Fin.forall_fin_succ]

theorem find_slots_eq_none {p : Slot → Bool} : slots.find? p = none ↔ ∀ i : Slot, p i = false := by
  rw [List.find?_eq_none]
  exact ⟨fun h i => by simpa using h i (mem_slots i), fun h i _ => by simp [h i]⟩

/-- The slot found is the lowest that sounds the pitch. -/
theorem VoiceBank.sounding_eq_some {b : VoiceBank} {pitch : Pitch} {i : Slot} :
    b.sounding pitch = some i ↔
      ((b.get i).enabled = true ∧ (b.get i).note = pitch) ∧
        ∀ j : Slot, j < i → ¬((b.get j).enabled = true ∧ (b.get j).note = pitch) := by
  rw [VoiceBank.sounding, find_slots_eq_some]
  simp

theorem VoiceBank.sounding_eq_none {b : VoiceBank} {pitch : Pitch} :
    b.sounding pitch = none ↔ ∀ i : Slot, ¬((b.get i).enabled = true ∧ (b.get i).note = pitch) := by
  rw [VoiceBank.sounding, find_slots_eq_none]
  simp

/-- The slot found is the lowest free one. -/
theorem VoiceBank.free_eq_some {b : VoiceBank} {i : Slot} :
    b.free = some i ↔ (b.get i).enabled = false ∧ ∀ j : Slot, j < i → (b.get j).enabled = true := by
  rw [VoiceBank.free, find_slots_eq_some]
  simp

theorem VoiceBank.free_eq_none {b : VoiceBank} :
    b.free = none ↔ ∀ i : Slot, (b.get i).enabled = true := by
  rw [VoiceBank.free, find_slots_eq_none]
  simp

/-- All that `Alloc` can answer: a retrigger, a free slot or a steal, in that order of preference. -/
theorem State.alloc_cases (s : State) (pitch : Pitch) :
    (∃ i, s.bank.sounding pitch = some i ∧ s.alloc pitch = ⟨i, .retrigger, s.rr⟩) ∨
    (s.bank.sounding pitch = none ∧ ∃ i, s.bank.free = some i ∧ s.alloc pitch = ⟨i, .free, s.rr⟩) ∨
    (s.bank.sounding pitch = none ∧ s.bank.free = none ∧ s.alloc pitch = ⟨s.rr, .steal, s.rr + 1⟩) := by
  unfold State.alloc
  cases h : s.bank.sounding pitch with
  | some i => exact .inl ⟨i, rfl, rfl⟩
  | none =>
    cases hf : s.bank.free with
    | some i => exact .inr (.inl ⟨rfl, i, rfl, rfl⟩)
    | none => exact .inr (.inr ⟨rfl, rfl, rfl⟩)

/-- Whatever slot `Alloc` gives, no other slot sounds the pitch, when no two slots sound one pitch. -/
theorem State.alloc_only_sounding {s : State} (hu : ∀ i j : Slot, i ≠ j →
      ¬((s.bank.get i).enabled = true ∧ (s.bank.get j).enabled = true ∧ (s.bank.get i).note = (s.bank.get j).note))
    (pitch : Pitch) {j : Slot} (hj : j ≠ (s.alloc pitch).slot) :
    ¬((s.bank.get j).enabled = true ∧ (s.bank.get j).note = pitch) := by
  obtain ⟨i, hs, ha⟩ | ⟨hs, _⟩ | ⟨hs, _⟩ := s.alloc_cases pitch
  · rw [ha] at hj
    obtain ⟨⟨he, hn⟩, _⟩ := VoiceBank.sounding_eq_some.1 hs
    exact fun h => hu j i hj ⟨h.1, he, h.2.trans hn.symm⟩
  · exact VoiceBank.sounding_eq_none.1 hs j
  · exact VoiceBank.sounding_eq_none.1 hs j

theorem Waveform.ofCode_code (w : Waveform) : Waveform.ofCode w.code = some w := by cases w <;> rfl

/-- A selector names a waveform exactly when it is not 3 (30_encoding.md rule R76). -/
theorem Waveform.ofCode_eq_none {c : BitVec 2} : Waveform.ofCode c = none ↔ c = 3#2 := by
  revert c; decide

end Sys2Proof.Machine
end

