-- ==== Sys2Proof/Laws/Queues.lean ====
section
/-! SUPPORT. What the FIFO primitives can do, said once (20_memory.md rules R52 to R55), and that they keep the queue
bounds of 10_state.md rule R40 (b). -/

namespace Sys2Proof.Machine

section
variable {α : Type}

theorem fifoPush_room {cap : Nat} {q : List α} (x : α) (h : q.length < cap) :
    fifoPush cap q x = (q ++ [x], .ok) := if_pos h

theorem fifoPush_full {cap : Nat} {q : List α} (x : α) (h : ¬ q.length < cap) :
    fifoPush cap q x = (q, .full) := if_neg h

/-- A push appends and answers `ok`, or changes nothing and answers `full`. -/
theorem fifoPush_cases (cap : Nat) (q : List α) (x : α) :
    (q.length < cap ∧ fifoPush cap q x = (q ++ [x], .ok)) ∨ (cap ≤ q.length ∧ fifoPush cap q x = (q, .full)) := by
  by_cases h : q.length < cap
  · exact .inl ⟨h, fifoPush_room x h⟩
  · exact .inr ⟨Nat.le_of_not_lt h, fifoPush_full x h⟩

theorem fifoPush_length_le {cap : Nat} {q : List α} (x : α) (h : q.length ≤ cap) :
    (fifoPush cap q x).1.length ≤ cap := by
  obtain ⟨hlt, he⟩ | ⟨_, he⟩ := fifoPush_cases cap q x
  · rw [he]; simp only [List.length_append, List.length_singleton]; omega
  · rw [he]; exact h

@[simp] theorem fifoPop_nil : fifoPop ([] : List α) = (none, []) := rfl

@[simp] theorem fifoPop_cons (x : α) (q : List α) : fifoPop (x :: q) = (some x, q) := rfl

theorem fifoPop_length_le (q : List α) : (fifoPop q).2.length ≤ q.length := by
  cases q <;> simp

end

theorem State.sqPush_room {s : State} (x : Sample) (h : s.sq.length < s.params.sqCap) :
    s.sqPush x = (s.withSq (s.sq ++ [x]), .ok) := by
  rw [State.sqPush, fifoPush_room x h]

theorem State.sqPush_full {s : State} (x : Sample) (h : ¬ s.sq.length < s.params.sqCap) :
    s.sqPush x = (s.withSq s.sq, .full) := by
  rw [State.sqPush, fifoPush_full x h]

theorem State.cqPush_room {s : State} (b : Byte) (h : s.cq.length < s.params.cqCap) :
    s.cqPush b = (s.withCq (s.cq ++ [b]), .ok) := by
  rw [State.cqPush, fifoPush_room b h]

theorem State.cqPush_full {s : State} (b : Byte) (h : ¬ s.cq.length < s.params.cqCap) :
    s.cqPush b = (s.withCq s.cq, .full) := by
  rw [State.cqPush, fifoPush_full b h]

theorem State.sqPop_nil {s : State} (h : s.sq = []) : s.sqPop = (none, s.withSq []) := by
  rw [State.sqPop, h]; rfl

theorem State.sqPop_cons {s : State} {x : Sample} {q : List Sample} (h : s.sq = x :: q) :
    s.sqPop = (some x, s.withSq q) := by
  rw [State.sqPop, h]; rfl

theorem State.cqPop_nil {s : State} (h : s.cq = []) : s.cqPop = (none, s.withCq []) := by
  rw [State.cqPop, h]; rfl

theorem State.cqPop_cons {s : State} {b : Byte} {q : List Byte} (h : s.cq = b :: q) :
    s.cqPop = (some b, s.withCq q) := by
  rw [State.cqPop, h]; rfl

/-- A push of `TICK` keeps the queue bounds. -/
theorem State.sqPush_bounded {s : State} (x : Sample) (h : s.QueuesBounded) : (s.sqPush x).1.QueuesBounded :=
  ⟨fifoPush_length_le x h.1, h.2⟩

/-- A push of `RXBYTE` keeps the queue bounds. -/
theorem State.cqPush_bounded {s : State} (b : Byte) (h : s.QueuesBounded) : (s.cqPush b).1.QueuesBounded :=
  ⟨h.1, fifoPush_length_le b h.2⟩

/-- A pop of `TX` keeps the queue bounds. -/
theorem State.sqPop_bounded {s : State} (h : s.QueuesBounded) : s.sqPop.2.QueuesBounded :=
  ⟨Nat.le_trans (fifoPop_length_le s.sq) h.1, h.2⟩

/-- A pop of `CPOP` keeps the queue bounds. -/
theorem State.cqPop_bounded {s : State} (h : s.QueuesBounded) : s.cqPop.2.QueuesBounded :=
  ⟨h.1, Nat.le_trans (fifoPop_length_le s.cq) h.2⟩

end Sys2Proof.Machine
end

