-- ==== Sys2Proof/Laws/Synth.lean ====
section
/-! SUPPORT. What the datapath of a `TICK` can do, said once: the ratio, the advance, the voice step and the mixer
(40_waveform.md, 41_tick_mix_enqueue.md rules R110, R111). -/

namespace Sys2Proof.Machine

@[simp] theorem Config.high_eq : Config.high = 1023 := rfl

theorem ratio_le {scale num den : Nat} (pos : 0 < den) (h : num ≤ den) : ratio scale num den pos ≤ scale :=
  Nat.div_le_of_le_mul (by rw [Nat.mul_comm den]; exact Nat.mul_le_mul_left scale h)

theorem square_le_high (phase period : Nat) : square phase period ≤ 1023 := by
  unfold square; split <;> simp

theorem saw_le_high {phase period : Nat} (pos : 0 < period) (h : phase < period) : saw phase period pos ≤ 1023 :=
  ratio_le pos (Nat.le_of_lt h)

theorem triangle_le_high (phase period : Nat) (pos : 0 < period) : triangle phase period pos ≤ 1023 := by
  unfold triangle half
  split
  · exact ratio_le pos (by omega)
  · exact ratio_le pos (by omega)

theorem wave_le_high (w : Waveform) {phase period : Nat} (pos : 0 < period) (h : phase < period) :
    wave w phase period pos ≤ 1023 := by
  cases w
  · exact square_le_high phase period
  · exact saw_le_high pos h
  · exact triangle_le_high phase period pos

/-- The advance of a phase below its period, as a number (40_waveform.md rule R98). -/
theorem advance_toNat {phase period : Period} (h : phase.toNat < period.toNat) :
    (advance phase period).toNat = if phase.toNat + 1 = period.toNat then 0 else phase.toNat + 1 := by
  unfold advance
  by_cases hc : phase.toNat + 1 = period.toNat
  · rw [if_pos hc, if_pos (by omega)]; rfl
  · rw [if_neg hc, if_neg (by omega), BitVec.toNat_add]
    have := period.isLt
    simp only [BitVec.toNat_ofNat]
    omega

theorem advance_lt {phase period : Period} (h : phase.toNat < period.toNat) :
    (advance phase period).toNat < period.toNat := by
  rw [advance_toNat h]; split <;> omega

theorem voiceStep_disabled {v : Voice} (h : v.enabled = false) : voiceStep v = .ok (0, v) := by
  rw [voiceStep, h]; rfl

theorem voiceStep_enabled {v : Voice} (he : v.enabled = true) (pos : 0 < v.period.toNat)
    (h : v.phase.toNat < v.period.toNat) :
    voiceStep v =
      .ok (wave v.waveform v.phase.toNat v.period.toNat pos, { v with phase := advance v.phase v.period }) := by
  rw [voiceStep, if_pos he, dif_pos pos, if_pos h]

/-- All that a voice step which answers can have done (40_waveform.md rule R99). -/
theorem voiceStep_cases {v v' : Voice} {o : Nat} (h : voiceStep v = .ok (o, v')) :
    (v.enabled = false ∧ o = 0 ∧ v' = v) ∨
    (v.enabled = true ∧ v.phase.toNat < v.period.toNat ∧ v' = { v with phase := advance v.phase v.period } ∧
      ∃ pos : 0 < v.period.toNat, o = wave v.waveform v.phase.toNat v.period.toNat pos) := by
  unfold voiceStep at h
  split at h
  · next he =>
    split at h
    · next pos =>
      split at h
      · next hl => cases h; exact .inr ⟨he, hl, rfl, pos, rfl⟩
      · cases h
    · cases h
  · next he => cases h; exact .inl ⟨by simpa using he, rfl, rfl⟩

/-- A voice step answers on every voice that meets the voice invariant (10_state.md rule R27). -/
theorem voiceStep_answers {v : Voice} (h : v.WellFormed) : ∃ o v', voiceStep v = .ok (o, v') := by
  cases he : v.enabled
  · exact ⟨0, v, voiceStep_disabled he⟩
  · exact ⟨_, _, voiceStep_enabled he (h he).1 (h he).2⟩

theorem voiceStep_le_high {v v' : Voice} {o : Nat} (h : voiceStep v = .ok (o, v')) : o ≤ 1023 := by
  obtain ⟨_, rfl, _⟩ | ⟨_, hl, _, pos, rfl⟩ := voiceStep_cases h
  · exact Nat.zero_le _
  · exact wave_le_high _ pos hl

/-- A voice step writes `phase` alone, and keeps the voice invariant. -/
theorem voiceStep_frame {v v' : Voice} {o : Nat} (h : voiceStep v = .ok (o, v')) :
    v'.enabled = v.enabled ∧ v'.waveform = v.waveform ∧ v'.period = v.period ∧ v'.note = v.note ∧
      (v.WellFormed → v'.WellFormed) := by
  obtain ⟨_, _, rfl⟩ | ⟨_, hl, rfl, pos, _⟩ := voiceStep_cases h
  · exact ⟨rfl, rfl, rfl, rfl, id⟩
  · exact ⟨rfl, rfl, rfl, rfl, fun _ _ => ⟨pos, advance_lt hl⟩⟩

/-- The mixer answers exactly when each of the four voice steps does, with their sum (41_tick_mix_enqueue.md rule
R110). -/
theorem mix_eq_ok_iff {b c : VoiceBank} {acc : Nat} :
    mix b = .ok (acc, c) ↔
      ∃ o0 o1 o2 o3, voiceStep b.v0 = .ok (o0, c.v0) ∧ voiceStep b.v1 = .ok (o1, c.v1) ∧
        voiceStep b.v2 = .ok (o2, c.v2) ∧ voiceStep b.v3 = .ok (o3, c.v3) ∧ acc = o0 + o1 + o2 + o3 := by
  constructor
  · intro h
    unfold mix at h
    split at h
    · next o0 v0 o1 v1 o2 v2 o3 v3 h0 h1 h2 h3 => cases h; exact ⟨o0, o1, o2, o3, h0, h1, h2, h3, rfl⟩
    all_goals cases h
  · rintro ⟨o0, o1, o2, o3, h0, h1, h2, h3, rfl⟩
    simp only [mix, h0, h1, h2, h3]

/-- The mixer by slot: slot `i` of the new bank is slot `i` stepped, and the sum is that of the four outputs. -/
theorem mix_by_slot {b c : VoiceBank} {acc : Nat} (h : mix b = .ok (acc, c)) :
    ∃ o : Slot → Nat, (∀ i, voiceStep (b.get i) = .ok (o i, c.get i)) ∧ acc = o 0 + o 1 + o 2 + o 3 := by
  obtain ⟨o0, o1, o2, o3, h0, h1, h2, h3, rfl⟩ := mix_eq_ok_iff.1 h
  refine ⟨fun i => match i with | 0 => o0 | 1 => o1 | 2 => o2 | 3 => o3, ?_, rfl⟩
  intro i
  fin_cases i
  exacts [h0, h1, h2, h3]

/-- The mixer answers on every bank whose voices meet the voice invariant. -/
theorem mix_answers {b : VoiceBank} (h : b.VoicesWellFormed) : ∃ acc c, mix b = .ok (acc, c) := by
  obtain ⟨o0, v0, h0⟩ := voiceStep_answers (h 0)
  obtain ⟨o1, v1, h1⟩ := voiceStep_answers (h 1)
  obtain ⟨o2, v2, h2⟩ := voiceStep_answers (h 2)
  obtain ⟨o3, v3, h3⟩ := voiceStep_answers (h 3)
  exact ⟨_, ⟨v0, v1, v2, v3⟩, mix_eq_ok_iff.2 ⟨o0, o1, o2, o3, h0, h1, h2, h3, rfl⟩⟩

/-- A number that 12 bits hold is narrowed to itself; a larger one saturates (41_tick_mix_enqueue.md rule R111). -/
theorem sat12_toNat (n : Nat) : (sat12 n).toNat = min n 4095 := by
  unfold sat12 Config.full
  rw [BitVec.toNat_ofNat]
  omega

end Sys2Proof.Machine
end

