-- ==== Sys2Proof/Laws/Tick.lean ====
section
/-! SUPPORT. All that the one push of a `TICK` can do (41_tick_mix_enqueue.md rule R113, 60_exceptions.md rules R169,
R170). -/

namespace Sys2Proof.Machine

/-- The push with room: the sample is appended and the stall left. -/
theorem State.enqueueHeld_room {s : State} (lab : Sample → PushResult → Label)
    (h : s.sq.length < s.params.sqCap) :
    s.enqueueHeld lab = ((s.withSq (s.sq ++ [s.held])).withStall false).withLabel (lab s.held .ok) := by
  rw [State.enqueueHeld, State.sqPush_room _ h]
  rfl

/-- The push without room: the stall is entered and the queue kept. -/
theorem State.enqueueHeld_full {s : State} (lab : Sample → PushResult → Label)
    (h : ¬ s.sq.length < s.params.sqCap) :
    s.enqueueHeld lab = (s.withStall true).withLabel (lab s.held .full) := by
  rw [State.enqueueHeld, State.sqPush_full _ h]
  rfl

/-- Both cases at once: nothing changes but the queue, the flag and the label. -/
theorem State.enqueueHeld_eq (s : State) (lab : Sample → PushResult → Label) :
    s.enqueueHeld lab =
      { s with sq := if s.sq.length < s.params.sqCap then s.sq ++ [s.held] else s.sq
               stall := !decide (s.sq.length < s.params.sqCap)
               label := some (lab s.held (if s.sq.length < s.params.sqCap then .ok else .full)) } := by
  unfold State.enqueueHeld
  by_cases h : s.sq.length < s.params.sqCap
  · rw [State.sqPush_room _ h]
    simp only [h, if_true, decide_true, Bool.not_true]
    rfl
  · rw [State.sqPush_full _ h]
    simp only [h, if_false, decide_false, Bool.not_false]
    rfl

/-- The push keeps the queue bounds. -/
theorem State.enqueueHeld_bounded {s : State} (lab : Sample → PushResult → Label) (h : s.QueuesBounded) :
    (s.enqueueHeld lab).QueuesBounded := by
  rw [State.enqueueHeld_eq]
  refine ⟨?_, h.2⟩
  show (if s.sq.length < s.params.sqCap then s.sq ++ [s.held] else s.sq).length ≤ s.params.sqCap
  split
  · simp only [List.length_append, List.length_singleton]; omega
  · exact h.1

end Sys2Proof.Machine
end

