-- ==== Sys2Proof/Laws/Exec.lean ====
section
/-! SUPPORT. All that each operation can have done when it answers a next state, said once: later proofs cite these and
unfold no meaning. -/

namespace Sys2Proof.Machine

theorem execNop_cases {s t : State} (h : execNop s = .next t) : t = s.withLabel .nop := by
  cases h; rfl

theorem execTick_cases {s t : State} (h : execTick s = .next t) :
    (s.stall = true ∧ t = s.enqueueHeld .retry) ∨
    (s.stall = false ∧ ∃ acc bank, mix s.bank = .ok (acc, bank) ∧
      t = ((s.withBank bank).withHeld (sat12 acc)).enqueueHeld .compute) := by
  unfold execTick at h
  split at h
  · next hs => cases h; exact .inl ⟨hs, rfl⟩
  · next hs =>
    split at h
    · cases h
    · next acc bank hm => cases h; exact .inr ⟨by simpa using hs, acc, bank, hm, rfl⟩

theorem execTx_cases {s t : State} (h : execTx s = .next t) :
    (s.sq = [] ∧ t = s.withLabel .txSkip) ∨
    (∃ r q, s.sq = r :: q ∧
      t = ((s.withSq q).withDac (s.dac ++ transfer (dacWord r))).withLabel (.tx (dacWord r))) := by
  unfold execTx at h
  cases hq : s.sq with
  | nil => rw [State.sqPop_nil hq] at h; cases h; exact .inl ⟨rfl, by cases s; cases hq; rfl⟩
  | cons r q => rw [State.sqPop_cons hq] at h; cases h; exact .inr ⟨r, q, rfl, rfl⟩

theorem execRxbyte_cases {b : Byte} {s t : State} (h : execRxbyte b s = .next t) :
    (s.cq.length < s.params.cqCap ∧ t = (s.withCq (s.cq ++ [b])).withLabel .rxAccept) ∨
    (s.params.cqCap ≤ s.cq.length ∧ t = s.withLabel .rxDrop) := by
  unfold execRxbyte at h
  by_cases hq : s.cq.length < s.params.cqCap
  · rw [State.cqPush_room b hq] at h; cases h; exact .inl ⟨hq, rfl⟩
  · rw [State.cqPush_full b hq] at h; cases h; exact .inr ⟨Nat.le_of_not_lt hq, rfl⟩

theorem execCpop_cases {s t : State} (h : execCpop s = .next t) :
    (s.cq = [] ∧ t = s.withLabel .cpopYield) ∨
    (∃ b q, s.cq = b :: q ∧ t = ((s.withCq q).withCtl (s.ctl ++ [.ctl b])).withLabel (.cpop b)) := by
  unfold execCpop at h
  cases hq : s.cq with
  | nil => rw [State.cqPop_nil hq] at h; cases h; exact .inl ⟨rfl, by cases s; cases hq; rfl⟩
  | cons b q => rw [State.cqPop_cons hq] at h; cases h; exact .inr ⟨b, q, rfl, rfl⟩

theorem execNoteon_cases {n : Pitch} {v : Velocity} {s t : State} (h : execNoteon n v s = .next t) :
    (s.params.period n = 0#16 ∧ t = s.withLabel .noteonRejected) ∨
    (s.params.period n ≠ 0#16 ∧
      t = ((s.withRr (s.alloc n).rr).withBank
            (s.bank.set (s.alloc n).slot ⟨true, s.program, 0#16, s.params.period n, n⟩)).withLabel
          (.noteon (s.alloc n).slot (s.alloc n).how)) := by
  unfold execNoteon at h
  split at h
  · next hp => cases h; exact .inl ⟨hp, rfl⟩
  · next hp => cases h; exact .inr ⟨hp, rfl⟩

theorem execNoteoff_cases {n : Pitch} {s t : State} (h : execNoteoff n s = .next t) :
    (s.bank.sounding n = none ∧ t = s.withLabel .noteoffNomatch) ∨
    (∃ i, s.bank.sounding n = some i ∧
      t = (s.withBank (s.bank.set i { s.bank.get i with enabled := false })).withLabel (.noteoff i)) := by
  unfold execNoteoff at h
  split at h
  · next i hi => cases h; exact .inr ⟨i, hi, rfl⟩
  · next hi => cases h; exact .inl ⟨hi, rfl⟩

theorem execProg_cases {c : BitVec 2} {s t : State} (h : execProg c s = .next t) :
    (∃ w, Waveform.ofCode c = some w ∧ t = (s.withProgram w).withLabel (.prog w)) ∨
    (c = 3#2 ∧ t = s.withLabel .reserved) := by
  unfold execProg at h
  split at h
  · next w hw => cases h; exact .inl ⟨w, hw, rfl⟩
  · next hw => cases h; exact .inr ⟨Waveform.ofCode_eq_none.1 hw, rfl⟩

end Sys2Proof.Machine
end

