-- ==== Sys2Proof/Laws/PerInstr.lean ====
section
/-! SUPPORT. Facts about every operation as syntax, one lemma per constructor of Instr. -/

namespace Sys2Proof.Laws.EncodesItsRow

/-- The word of an operation carries its row's opcode and no reserved bit (30_encoding.md rules R71, R73). -/
def Statement (i : Instr) : Prop :=
  Opcode.ofField (opField (encode i)) = some i.opcode ∧ rsvField (encode i) = 0#12

theorem nop : Statement .nop := ⟨rfl, rfl⟩
theorem tick : Statement .tick := ⟨rfl, rfl⟩
theorem tx : Statement .tx := ⟨rfl, rfl⟩
theorem noteon (pitch : Pitch) (velocity : Velocity) : Statement (.noteon pitch velocity) := by
  simp [Statement, encode, Instr.opcode, Opcode.ofField]
theorem noteoff (pitch : Pitch) : Statement (.noteoff pitch) := by
  simp [Statement, encode, Instr.opcode, Opcode.ofField]
theorem prog (wsel : BitVec 2) : Statement (.prog wsel) := by
  simp [Statement, encode, Instr.opcode, Opcode.ofField]
theorem rxbyte (data : Byte) : Statement (.rxbyte data) := by
  simp [Statement, encode, Instr.opcode, Opcode.ofField]
theorem cpop : Statement .cpop := ⟨rfl, rfl⟩

end Sys2Proof.Laws.EncodesItsRow
end

