-- ==== Sys2Proof/Laws/Streams.lean ====
section
/-! SUPPORT. What one transfer adds to the DAC stream, and what is recovered from it (43_transmit.md rules R151 to
R153). -/

namespace Sys2Proof.Machine

/-- Appending a transfer to a stream that parses appends its two bytes. -/
theorem transfersOf_append_transfer (hi lo : Byte) {es : List DacEvent} {ps : List (Byte × Byte)}
    (h : transfersOf es = some ps) :
    transfersOf (es ++ [.ssAssert, .byte hi, .byte lo, .ssDeassert]) = some (ps ++ [(hi, lo)]) := by
  fun_induction transfersOf es generalizing ps with
  | case1 => cases h; rfl
  | case2 hi' lo' rest ih =>
    obtain ⟨qs, hq, rfl⟩ := Option.map_eq_some_iff.1 h
    simp only [List.cons_append, transfersOf, ih hq, Option.map_some]
  | case3 => cases h

/-- The high nibble of a DAC word's high byte is the command prefix (43_transmit.md rule R151). -/
theorem highByte_dacWord_nibble (s : Sample) : (highByte (dacWord s)).extractLsb' 4 4 = 0x3#4 := by
  apply BitVec.eq_of_getLsbD_eq
  intro i hi
  have : i = 0 ∨ i = 1 ∨ i = 2 ∨ i = 3 := by omega
  obtain rfl | rfl | rfl | rfl := this <;>
    simp [highByte, dacWord, Config.dacCommand]

/-- A transfer gives its sample back (43_transmit.md rule R153). -/
theorem sampleOfTransfer_dacWord (s : Sample) :
    sampleOfTransfer (highByte (dacWord s), lowByte (dacWord s)) = s := by
  apply BitVec.eq_of_getLsbD_eq
  intro i hi
  have : i = 0 ∨ i = 1 ∨ i = 2 ∨ i = 3 ∨ i = 4 ∨ i = 5 ∨ i = 6 ∨ i = 7 ∨ i = 8 ∨ i = 9 ∨ i = 10 ∨ i = 11 := by omega
  obtain rfl | rfl | rfl | rfl | rfl | rfl | rfl | rfl | rfl | rfl | rfl | rfl := this <;>
    simp [sampleOfTransfer, highByte, lowByte, dacWord, Config.dacCommand]

end Sys2Proof.Machine
end

