-- ==== Sys2Proof/Tests/Slice0.lean ====
section
/-! SUPPORT. Tests. Expected values are those of 95_test_vectors.md, cited by their ids, or are worked by hand from
the encoding tables and rules of spec/. The theorems `test_meets_<Name>` show concrete states and operands that meet
the hypotheses of the statement `<Name>`, clause by clause and at the bounds. -/

namespace Sys2Proof.Tests

open Sys2Proof Sys2Proof.Machine

/-! ### Well-formedness, decoding, encoding -/

theorem test_wellFormed_refuses_selector_three : (Instr.prog 3#2).wellFormed = false := by decide

theorem test_wellFormed_accepts_selector_two : (Instr.prog 2#2).wellFormed = true := by decide

/-- V-D1, V-D2, V-D3, V-D12: the words with no operands, written out. -/
theorem test_decode_format_Z :
    [0b00000000000000000000000000000000#32, 0b00010000000000000000000000000000#32,
     0b00100000000000000000000000000000#32, 0b01110000000000000000000000000000#32].map decode =
    [.op .nop, .op .tick, .op .tx, .op .cpop] := by decide

/-- V-D4, V-D5, V-D6. -/
theorem test_decode_noteon :
    [0b00110000000000000111110001100100#32, 0x3000FFFF#32, 0x30000000#32].map decode =
    [.op (.noteon 124#8 100#8), .op (.noteon 255#8 255#8), .op (.noteon 0#8 0#8)] := by decide

/-- V-D7. -/
theorem test_decode_noteoff : decode 0b01000000000000000111110000000000#32 = .op (.noteoff 124#8) := by decide

/-- V-D8, V-D9, V-D10. -/
theorem test_decode_prog :
    [0x50000000#32, 0x50000100#32, 0b01010000000000000000001000000000#32].map decode =
    [.op (.prog 0#2), .op (.prog 1#2), .op (.prog 2#2)] := by decide

/-- V-D11. -/
theorem test_decode_rxbyte : decode 0b01100000000000000000000010100101#32 = .op (.rxbyte 0xA5#8) := by decide

/-- V-D13 to V-D24. -/
theorem test_decode_reserved :
    [0x50000300#32, 0x5000FF00#32, 0x50000201#32, 0x40007C01#32, 0x60000100#32, 0x10000001#32, 0x00000001#32,
     0x30017C64#32, 0x1FFF0000#32, 0x80000000#32, 0xF0000000#32, 0xFFFFFFFF#32].map decode =
    [.reserved .selectorThree, .reserved .operandNotZero, .reserved .operandNotZero, .reserved .operandNotZero,
     .reserved .operandNotZero, .reserved .operandNotZero, .reserved .operandNotZero, .reserved .rsvNotZero,
     .reserved .rsvNotZero, .reserved .noSuchOpcode, .reserved .noSuchOpcode, .reserved .rsvNotZero] := by decide

/-- The words of 95_test_vectors.md programs P1, P3 and P4. -/
theorem test_encode_words :
    [Instr.nop, .tick, .tx, .noteon 124#8 100#8, .noteoff 124#8, .prog 2#2, .rxbyte 0x90#8, .cpop].map encode =
    [0x00000000#32, 0x10000000#32, 0x20000000#32, 0x30007C64#32, 0x40007C00#32, 0x50000200#32, 0x60000090#32,
     0x70000000#32] := by decide

theorem test_table_bits :
    decodeTableWord 32 0x30007C64 = some (.noteon 124#8 100#8) ∧ decodeTableWord 32 0x50000300 = none ∧
    decodeTableWord 8 0x164 = none := by decide

/-- 20_memory.md rule R60. -/
theorem test_stored_word_is_big_endian :
    bytesOfWord 0x30007C64#32 = [0x30#8, 0x00#8, 0x7C#8, 0x64#8] ∧ wordOfBytes [0x30#8, 0x00#8, 0x7C#8] = none := by
  decide

/-- Program P1's assembly, and the words it lists. -/
theorem test_assemble_P1 :
    (assembleText ["PROG 2".toList, "noteon 124, 0x64 ; comment".toList, "TICKS 2".toList, "".toList,
      "rxburst 1,2".toList]).toOption =
    some [0x50000200#32, 0x30007C64#32, 0x10000000#32, 0x10000000#32, 0x60000001#32, 0x60000002#32] := by decide

/-- 30_encoding.md rule R80: an operand outside its range is an error, not a truncation. -/
theorem test_assemble_out_of_range :
    (match assembleLine "NOTEON 256, 1".toList with
     | .error e => e == .outOfRange
     | .ok _ => false) = true ∧
    (match assembleLine "PROG 3".toList with
     | .error e => e == .outOfRange
     | .ok _ => false) = true := by decide

/-! ### The datapath -/

/-- V-R2, V-R4, V-R7, V-R8, V-R9, V-R11. -/
theorem test_ratio :
    ratio 1023 9 10 (by decide) = 920 ∧ ratio 1023 1 3 (by decide) = 341 ∧ ratio 1023 65534 65535 (by decide) = 1022 ∧
    ratio 1023 1 65535 (by decide) = 0 ∧ ratio 1023 65 65535 (by decide) = 1 ∧ ratio 4095 22 45 (by decide) = 2002 := by
  decide

/-- V-SQ5, V-SW6, V-TR5. -/
theorem test_waveforms :
    (List.range 5).map (fun p => square p 5) = [1023, 1023, 1023, 0, 0] ∧
    (List.range 7).map (fun p => saw p 7 (by decide)) = [0, 146, 292, 438, 584, 730, 876] ∧
    (List.range 5).map (fun p => triangle p 5 (by decide)) = [0, 409, 818, 818, 409] := by decide

/-- V-SQ9, V-TR9. -/
theorem test_waveforms_longest_period :
    square 32767 65535 = 1023 ∧ square 32768 65535 = 0 ∧ triangle 32767 65535 (by decide) = 1022 ∧
    triangle 32768 65535 (by decide) = 1022 := by decide

/-- V-M6. -/
theorem test_sat12 :
    sat12 4092 = 4092#12 ∧ sat12 4095 = 4095#12 ∧ sat12 4096 = 4095#12 ∧ sat12 5115 = 4095#12 := by decide

/-! ### One step of each operation -/

/-- The state of an outcome. -/
def stateOf : Host.Outcome State Fault Refusal → Option State
  | .next t => some t
  | .fault _ => none
  | .refused _ => none

/-- Reset with both capacities 2 and the periods of the examples. -/
def small : State := State.resetWith ⟨2, 2, Config.periodTableT⟩

/-- An enabled voice. -/
def on (w : Waveform) (phase period note : Nat) : Voice :=
  ⟨true, w, BitVec.ofNat 16 phase, BitVec.ofNat 16 period, BitVec.ofNat 8 note⟩

/-- The bank of V-T. -/
def sawBank : VoiceBank := { VoiceBank.reset with v0 := on .saw 2 10 118 }

/-- A full bank, with the voices of V-A6, V-A2 and V-A3 in it. -/
def fullBank : VoiceBank := ⟨on .triangle 65534 65535 9, on .saw 9 10 118, on .square 3 4 124, on .square 0 1 127⟩

/-- A bank whose only free slot is the last. -/
def lastFree : VoiceBank := fullBank.set 3 Voice.reset

/-- The bank of V-M4. -/
def loudBank : VoiceBank := ⟨on .square 0 1 127, on .square 0 2 126, on .square 0 3 125, on .square 0 4 124⟩

theorem test_nop : (stateOf (exec .nop small)).map (·.label) = some (some .nop) := by decide

/-- V-T2. -/
theorem test_tick_enters_stall :
    (stateOf (exec .tick { small with bank := sawBank, sq := [0#12, 102#12] })).map
        (fun t => (t.sq, t.stall, t.held, t.bank.v0.phase, t.label)) =
      some ([0#12, 102#12], true, 204#12, 3#16, some (.compute 204#12 .full)) := by decide

/-- V-T4: no compute, no advance. -/
theorem test_tick_retries :
    (stateOf (exec .tick { small with bank := sawBank, sq := [102#12], stall := true, held := 204#12 })).map
        (fun t => (t.sq, t.stall, t.held, t.bank.v0.phase, t.label)) =
      some ([102#12, 204#12], false, 204#12, 2#16, some (.retry 204#12 .ok)) := by decide

/-- V-X3. -/
theorem test_tx_sends_the_head :
    (stateOf (exec .tx { small with sq := [511#12, 1023#12] })).map (fun t => (t.sq, t.dac, t.label)) =
      some ([1023#12], [.ssAssert, .byte 0x31#8, .byte 0xFF#8, .ssDeassert], some (.tx 0x31FF#16)) := by decide

/-- V-X1. -/
theorem test_tx_skips :
    (stateOf (exec .tx small)).map (fun t => (t.sq, t.dac, t.label)) = some ([], [], some .txSkip) := by decide

/-- V-N7. -/
theorem test_noteon_steals :
    (stateOf (exec (.noteon 126#8 1#8) { small with bank := fullBank, rr := 3 })).map
        (fun t => (t.bank.v3, t.rr, t.label)) =
      some (on .square 0 2 126, 0, some (.noteon 3 .steal)) := by decide

/-- V-N11. -/
theorem test_noteon_retriggers :
    (stateOf (exec (.noteon 118#8 1#8)
        { small with bank := { VoiceBank.reset with v0 := { on .saw 2 10 118 with enabled := false }
                                                    v1 := on .saw 7 10 118 } })).map
        (fun t => (t.bank.v0.enabled, t.bank.v1, t.rr, t.label)) =
      some (false, on .square 0 10 118, 0, some (.noteon 1 .retrigger)) := by decide

/-- V-F1. -/
theorem test_noteoff_disables :
    (stateOf (exec (.noteoff 118#8) { small with bank := fullBank })).map (fun t => (t.bank.v1, t.label)) =
      some ({ on .saw 9 10 118 with enabled := false }, some (.noteoff 1)) := by decide

/-- V-F3. -/
theorem test_noteoff_of_a_reset_slot :
    (stateOf (exec (.noteoff 0#8) small)).map (·.label) = some (some .noteoffNomatch) := by decide

/-- V-G1. -/
theorem test_prog :
    (stateOf (exec (.prog 2#2) { small with bank := sawBank })).map (fun t => (t.program, t.bank, t.label)) =
      some (.triangle, sawBank, some (.prog .triangle)) := by decide

/-- V-C2. -/
theorem test_rxbyte_accepts :
    (stateOf (exec (.rxbyte 0x00#8) { small with cq := [0x90#8] })).map (fun t => (t.cq, t.label)) =
      some ([0x90#8, 0x00#8], some .rxAccept) := by decide

/-- V-C3. -/
theorem test_rxbyte_drops :
    (stateOf (exec (.rxbyte 0xFF#8) { small with cq := [0x90#8, 0x00#8] })).map (fun t => (t.cq, t.label)) =
      some ([0x90#8, 0x00#8], some .rxDrop) := by decide

/-- V-C4. -/
theorem test_cpop_delivers :
    (stateOf (exec .cpop { small with cq := [0x90#8, 0x00#8] })).map (fun t => (t.cq, t.ctl, t.label)) =
      some ([0x00#8], [.ctl 0x90#8], some (.cpop 0x90#8)) := by decide

/-- V-C6. -/
theorem test_cpop_yields :
    (stateOf (exec .cpop small)).map (fun t => (t.cq, t.ctl, t.label)) = some ([], [], some .cpopYield) := by decide

/-- Program P5, step 3. -/
theorem test_step_reserved_word :
    (stateOf (step (small.present 0x50000300#32))).map (fun t => (t.program, t.inputs, t.label)) =
      some (.square, [], some .reserved) := by decide

/-- V-E4, as the first operation after reset. -/
theorem test_step_first_noteon :
    (stateOf (step (State.reset.withFetchWord 32 0x30007601))).map (fun t => (t.bank.v0, t.label)) =
      some (on .square 0 10 118, some (.noteon 0 .free)) := by decide

/-- 43_transmit.md rule R153: a transfer cut short, or with another prefix, is not well bracketed. -/
theorem test_bracketing :
    dacBracketed [.ssAssert, .byte 0x31#8, .byte 0xFF#8, .ssDeassert] = true ∧
    dacBracketed [.ssAssert, .byte 0x31#8, .byte 0xFF#8] = false ∧
    dacBracketed [.ssAssert, .byte 0x41#8, .byte 0xFF#8, .ssDeassert] = false ∧
    sentSamples [.ssAssert, .byte 0x31#8, .byte 0xFF#8, .ssDeassert] = [511#12] := by decide

/-! ### The statements' hypotheses are met -/

/-- Both queues full, a full bank, a stall and something on each stream. -/
def busy : State :=
  { small with bank := fullBank, program := .triangle, rr := 3, stall := true, held := 4095#12
               sq := [0#12, 4095#12], cq := [0x00#8, 0xFF#8]
               dac := [.ssAssert, .byte 0x3F#8, .byte 0xFC#8, .ssDeassert], ctl := [.ctl 0x90#8] }

/-- The same block outside the stall, with one free place in each queue. -/
def roomy : State := { busy with stall := false, sq := [4095#12], cq := [0xFF#8] }

theorem test_busy_wellFormed : busy.WellFormed := by decide

theorem test_roomy_wellFormed : roomy.WellFormed := by decide

theorem test_busy_sound : busy.Sound := ⟨test_busy_wellFormed, by decide⟩

/-- Step 1; step 2; step 3; step 4; step 5, at the bounds of the fields. -/
theorem test_meets_DecodingTakesTheFiveSteps :
    (0x00010000#32).extractLsb' 16 12 ≠ 0#12 ∧ 8 ≤ ((0x80000000#32).extractLsb' 28 4).toNat ∧
    (0x7000FFFF#32).extractLsb' 28 4 = 0x7#4 ∧ 0x7000FFFF#32 &&& 0xFFFFFFFF#32 ≠ 0x70000000#32 ∧
    0x50000300#32 &&& 0xFFFFFCFF#32 = 0x50000000#32 ∧ (0x50000300#32).extractLsb' 8 2 = 3#2 ∧
    0x50000200#32 &&& 0xFFFFFCFF#32 = 0x50000000#32 ∧ (0x50000200#32).extractLsb' 8 2 ≠ 3#2 ∧
    0x3000FFFF#32 &&& 0xFFFF0000#32 = 0x30000000#32 := by decide

theorem test_meets_DecodeOfEncodeIsTheOperation :
    (Instr.noteon 255#8 255#8).wellFormed = true ∧ (Instr.prog 2#2).wellFormed = true := by decide

theorem test_meets_DecodedWordIsItsEncoding : decode 0x3000FFFF#32 = .op (.noteon 255#8 255#8) := by decide

theorem test_meets_StepRunsTheDecodedOperation :
    (busy.present 0x3000FFFF#32).WellFormed ∧ (busy.present 0x3000FFFF#32).inputs = [.op 0x3000FFFF#32] ∧
    decode 0x3000FFFF#32 = .op (.noteon 255#8 255#8) := by decide

theorem test_meets_PresentedWordRunsNext :
    busy.WellFormed ∧ decodeTableWord 32 0x600000FF = some (.rxbyte 255#8) := by decide

theorem test_meets_ReservedWordChangesNothing :
    (busy.present 0x80000000#32).WellFormed ∧ (busy.present 0x80000000#32).inputs = [.op 0x80000000#32] ∧
    8 ≤ ((0x80000000#32).extractLsb' 28 4).toNat ∧ (0x70010000#32).extractLsb' 16 12 ≠ 0#12 ∧
    ((0x70000100#32).extractLsb' 28 4 = 0x7#4 ∧ (0x70000100#32).extractLsb' 8 8 ≠ 0#8) ∧
    ((0x00000001#32).extractLsb' 28 4 = 0x0#4 ∧ (0x00000001#32).extractLsb' 0 8 ≠ 0#8) ∧
    ((0x4000FF01#32).extractLsb' 28 4 = 0x4#4 ∧ (0x4000FF01#32).extractLsb' 0 8 ≠ 0#8) ∧
    ((0x50000400#32).extractLsb' 28 4 = 0x5#4 ∧ (0x50000400#32).extractLsb' 10 6 ≠ 0#6) ∧
    ((0x50000201#32).extractLsb' 28 4 = 0x5#4 ∧ (0x50000201#32).extractLsb' 0 8 ≠ 0#8) ∧
    ((0x50000300#32).extractLsb' 28 4 = 0x5#4 ∧ (0x50000300#32).extractLsb' 8 2 = 3#2) ∧
    ((0x600001FF#32).extractLsb' 28 4 = 0x6#4 ∧ (0x600001FF#32).extractLsb' 8 8 ≠ 0#8) := by decide

/-- Each clause of well-formedness broken by the least amount. -/
def illFormed : List State :=
  [small.withBank (VoiceBank.reset.set 3 (on .square 0 0 1)), small.withBank (VoiceBank.reset.set 3 (on .saw 1 1 1)),
   small.withBank ((VoiceBank.reset.set 0 (on .saw 0 1 1)).set 3 (on .saw 0 1 1)),
   small.withSq [0#12, 0#12, 0#12], small.withCq [0#8, 0#8, 0#8], State.resetWith ⟨0, 1, Config.periodTableT⟩]

theorem test_meets_IllFormedStateIsRefused :
    ∀ s ∈ illFormed, ¬(s.present 0#32).WellFormed ∧ (s.present 0#32).inputs = [.op 0#32] := by decide

theorem test_meets_NothingPresentedNothingDone : busy.inputs = [] := by decide

theorem test_meets_ResetInputResetsTheBlock : (busy.withInputs [.reset, .op 0#32]).inputs = .reset :: [.op 0#32] := by
  decide

theorem test_meets_ResetValues :
    (∃ p : Params, State.resetWith ⟨1, 1, Config.periodTableT⟩ = State.resetWith p) ∧ State.reset = State.reset :=
  ⟨⟨_, rfl⟩, rfl⟩

/-- The least capacities; the last pitch with a valid period. -/
theorem test_meets_FirstOperationAfterReset :
    (Params.mk 1 1 Config.periodTableT).WellFormed ∧ (Params.mk 1 1 Config.periodTableT).period 127#8 ≠ 0#16 := by
  decide

theorem test_meets_NopDoesNothing : decode 0x00000001#32 = .reserved .operandNotZero := by decide

/-- A retry with room and without; a computing tick over phases at both ends, with one place left and with none. -/
theorem test_meets_TickComputesOrRetries :
    (busy.stall = true ∧ ¬ busy.sq.length < busy.params.sqCap) ∧
    ({ busy with sq := [0#12] }.stall = true ∧ { busy with sq := [0#12] }.sq.length + 1 = busy.params.sqCap) ∧
    (roomy.stall = false ∧ roomy.bank.VoicesWellFormed ∧ roomy.sq.length + 1 = roomy.params.sqCap) ∧
    ({ busy with stall := false }.stall = false ∧ { busy with stall := false }.bank.VoicesWellFormed) := by decide

theorem test_meets_TxSendsTheHeadOrSkips : small.sq = [] ∧ roomy.sq = 4095#12 :: [] ∧ busy.sq = 0#12 :: [4095#12] := by
  decide

/-- Pitch 128 has no period, pitch 127 has; the pitch sounds in the first slot and in the last; the last slot alone is
free, the first is; all four sound other pitches, with `rr` at its last value. -/
theorem test_meets_NoteonAllocatesAndWritesOneSlot :
    busy.params.period 128#8 = 0#16 ∧ busy.params.period 127#8 ≠ 0#16 ∧ busy.params.period 9#8 ≠ 0#16 ∧
    busy.params.period 126#8 ≠ 0#16 ∧
    ((fullBank.get 0).enabled = true ∧ (fullBank.get 0).note = 9#8) ∧
    ((fullBank.get 3).enabled = true ∧ (fullBank.get 3).note = 127#8 ∧ ∀ j < (3 : Slot), (fullBank.get j).note ≠ 127#8) ∧
    ((∀ j, ¬((lastFree.get j).enabled = true ∧ (lastFree.get j).note = 126#8)) ∧ (lastFree.get 3).enabled = false ∧
      ∀ j < (3 : Slot), (lastFree.get j).enabled = true) ∧
    (VoiceBank.reset.get 0).enabled = false ∧
    ((∀ j, ¬((fullBank.get j).enabled = true ∧ (fullBank.get j).note = 126#8)) ∧ (∀ j, (fullBank.get j).enabled = true) ∧
      busy.rr = 3) := by decide

theorem test_meets_NoteoffDisablesTheSoundingSlot :
    ((fullBank.get 3).enabled = true ∧ (fullBank.get 3).note = 127#8 ∧ ∀ j < (3 : Slot), (fullBank.get j).note ≠ 127#8) ∧
    (∀ j, ¬((fullBank.get j).enabled = true ∧ (fullBank.get j).note = 0#8)) ∧
    (∀ j, ¬((VoiceBank.reset.get j).enabled = true ∧ (VoiceBank.reset.get j).note = 0#8)) := by decide

theorem test_meets_ProgWritesTheProgram : 2#2 ≠ 3#2 ∧ 0#2 ≠ 3#2 := by decide

theorem test_meets_RxbyteQueuesOrDrops :
    roomy.cq.length < roomy.params.cqCap ∧ roomy.cq.length + 1 = roomy.params.cqCap ∧
    busy.params.cqCap ≤ busy.cq.length := by decide

theorem test_meets_CpopDeliversTheHeadOrYields : small.cq = [] ∧ roomy.cq = 0xFF#8 :: [] := by decide

/-- Of four voices the last alone has period 0. -/
theorem test_meets_ZeroPeriodOnAnEnabledVoiceFaults :
    { roomy with bank := fullBank.set 3 (on .square 0 0 127) }.stall = false ∧
    ((fullBank.set 3 (on .square 0 0 127)).get 3).enabled = true ∧
    ((fullBank.set 3 (on .square 0 0 127)).get 3).period = 0#16 := by decide

theorem test_meets_RatioTruncatesTheExactQuotient : 0 < 1 ∧ 0 < 4095 ∧ 0 < 1 ∧ 0 < 65535 ∧ 65534 < 65535 := by decide

theorem test_meets_SquareIsHighForTheFirstHalf : (0 < 1 ∧ 0 < 1) ∧ (0 < 65535 ∧ 65534 < 65535) := by decide

theorem test_meets_SawRisesFromZeroBelowHigh :
    (0 < 1 ∧ 0 ≤ 0 ∧ 0 < 1) ∧ (0 < 1023 ∧ 0 ≤ 1022 ∧ 1022 < 1023 ∧ 1023 ≤ 1023) := by decide

/-- An even and an odd period, the first and the last phase of each half. -/
theorem test_meets_TriangleRisesThenFalls :
    (0 < 10 ∧ 10 % 2 = 0 ∧ 0 ≤ 5 ∧ 5 ≤ 10 / 2 ∧ 10 / 2 < 6 ∧ 6 ≤ 9 ∧ 9 < 10) ∧
    (0 < 3 ∧ 3 % 2 = 1 ∧ 1 < 3 ∧ 3 / 2 < 2 ∧ 2 ≤ 2 ∧ 2 < 3) ∧ (0 < 1 ∧ 1 % 2 = 1 ∧ 0 < 1) := by decide

theorem test_meets_PhaseAdvancesModuloThePeriod :
    (0#16).toNat < (1#16).toNat ∧ (65534#16).toNat < (65535#16).toNat ∧ 0 < (1#16).toNat := by decide

theorem test_meets_VoiceStepOutputsThenAdvances :
    Voice.reset.enabled = false ∧
    (0 < fullBank.v0.period.toNat ∧ fullBank.v0.enabled = true ∧ fullBank.v0.phase.toNat < fullBank.v0.period.toNat) ∧
    (0 < fullBank.v3.period.toNat ∧ fullBank.v3.enabled = true ∧ fullBank.v3.phase.toNat < fullBank.v3.period.toNat) := by
  decide

theorem test_meets_VoiceOutputIsAtMostHigh : busy.WellFormed := by decide

/-- V-M4: the loudest bank, in a well-formed state. -/
theorem test_meets_MixNeedsNoClamp :
    { roomy with bank := loudBank }.WellFormed ∧
    (∀ i : Slot, (loudBank.get i).enabled = true ∧ (loudBank.get i).waveform = .square ∧
      0 < (loudBank.get i).period.toNat ∧ (loudBank.get i).phase.toNat < (loudBank.get i).period.toNat ∧
      (loudBank.get i).phase.toNat ≤ (loudBank.get i).period.toNat / 2) := by decide

/-- The first and the last slot exchanged; the bank mixes. -/
theorem test_meets_MixIgnoresTheOrderOfSlots :
    (∀ i : Slot, (⟨fullBank.v3, fullBank.v1, fullBank.v2, fullBank.v0⟩ : VoiceBank).get i =
      fullBank.get (Equiv.swap 0 3 i)) ∧ ∃ acc c, mix fullBank = .ok (acc, c) :=
  ⟨by decide, _, _, rfl⟩

theorem test_meets_QueuePrimitives :
    roomy.sq.length < roomy.params.sqCap ∧ ¬ busy.sq.length < busy.params.sqCap ∧ small.sq = [] ∧
    roomy.sq = 4095#12 :: [] ∧ roomy.cq.length < roomy.params.cqCap ∧ ¬ busy.cq.length < busy.params.cqCap ∧
    small.cq = [] ∧ roomy.cq = 0xFF#8 :: [] := by decide

/-- A burst of one more byte than fits, into a queue with one place and into a full one. -/
theorem test_meets_BurstKeepsTheFirstBytesThatFit :
    roomy.WellFormed ∧ busy.WellFormed ∧ [0x00#8, 0xFF#8] ≠ [] ∧ [0x00#8] ≠ [] := by decide

/-- Every operation answers a next state, in the stall and outside it: this meets the hypothesis `exec i s = next t`
of VoiceBankIsWrittenAsTheTableSays, StallIsTheLastEnqueueFailure, OnlyTxAndCpopEmit and AgentsTouchOnlyTheirOwn. -/
theorem test_meets_every_operation_answers :
    ∀ s ∈ [busy, roomy], ∀ i ∈ [Instr.nop, .tick, .tx, .noteon 126#8 0#8, .noteoff 127#8, .prog 2#2, .rxbyte 1#8, .cpop],
      ∃ t, exec i s = .next t := by
  intro s hs i hi
  simp only [List.mem_cons, List.not_mem_nil, or_false] at hs hi
  rcases hs with rfl | rfl <;> rcases hi with rfl | rfl | rfl | rfl | rfl | rfl | rfl | rfl <;> exact ⟨_, rfl⟩

/-- A retry and a computing tick, each of `NOTEON`'s and `NOTEOFF`'s cases: no period, a steal by `rr` at its last
value, a pitch sounding in the last slot, a pitch sounding in none. -/
theorem test_meets_VoiceBankIsWrittenAsTheTableSays :
    busy.stall = true ∧ roomy.stall = false ∧ busy.params.period 128#8 = 0#16 ∧
    (busy.params.period 126#8 ≠ 0#16 ∧ (busy.alloc 126#8).slot = 3) ∧
    busy.bank.sounding 127#8 = some 3 ∧ busy.bank.sounding 126#8 = none := by decide

/-- `held` changes at a computing tick; a well-formed state outside a stall. -/
theorem test_meets_HeldMattersOnlyInAStall :
    (∃ t, exec .tick roomy = .next t ∧ t.held ≠ roomy.held) ∧ roomy.WellFormed ∧ roomy.stall = false :=
  ⟨⟨_, rfl, by decide⟩, by decide, by decide⟩

theorem test_meets_OnlyTickReadsStall : Instr.tx ≠ .tick ∧ Instr.nop ≠ .tick := by decide

theorem test_meets_StallEntryIsPrecise :
    { busy with stall := false }.WellFormed ∧ { busy with stall := false }.stall = false ∧
    busy.sq.length = busy.params.sqCap ∧ busy.sq.length < 3 := by decide

theorem test_meets_ParametersNeverChange :
    (∃ t, step (busy.present 0x10000000#32) = .next t) ∧ ∃ t, step (busy.withInputs [.reset]) = .next t :=
  ⟨⟨_, rfl⟩, ⟨_, rfl⟩⟩

theorem test_meets_DisabledVoiceIsNotRead :
    { roomy with bank := lastFree }.WellFormed ∧ Voice.reset.enabled = false ∧
    ({ on .saw 9 0 127 with enabled := false } : Voice).enabled = false ∧ (lastFree.get 3).enabled = false := by decide

/-- A full enqueue, a full ControlQueue and an invalid period, each with its condition. -/
theorem test_meets_EachConditionBelongsToOneOperation :
    (stateOf (exec .tick busy)).map (fun t => t.label.map Label.condition) = some (some (some .sqFull)) ∧
    (stateOf (exec (.rxbyte 1#8) busy)).map (fun t => t.label.map Label.condition) = some (some (some .cqFull)) ∧
    (stateOf (exec (.noteon 128#8 1#8) busy)).map (fun t => t.label.map Label.condition) =
      some (some (some .badPeriod)) ∧
    (Instr.noteon 128#8 1#8).wellFormed = true := by decide

theorem test_meets_PitchSoundsInOneSlotOrNone : busy.WellFormed ∧ busy.params.period 127#8 ≠ 0#16 := by decide

theorem test_meets_EveryOperationKeepsWellFormedness : busy.WellFormed ∧ roomy.WellFormed := by decide

theorem test_meets_EveryStepKeepsSoundness :
    (busy.present 0x20000000#32).Sound ∧ (busy.withInputs [.reset]).Sound :=
  ⟨⟨by decide, by decide⟩, ⟨by decide, by decide⟩⟩

theorem test_meets_ResetStateIsSound : (Params.mk 1 1 Config.periodTableT).WellFormed := by decide

/-- A state one step away from reset. -/
theorem test_meets_ReachableStatesGoOn :
    ∃ t : State, Reachable t ∧ t.label = some (.noteon 0 .free) :=
  ⟨_, .step _ _ (.reset ⟨1, 1, Config.periodTableT⟩ (by decide) [.op 0x30007F7F#32]) rfl, by decide⟩

theorem test_meets_NoSampleIsDroppedDuplicatedOrReordered : busy.Sound ∧ busy.accountedSamples.length = 4 :=
  ⟨test_busy_sound, by decide⟩

theorem test_meets_AcceptedBytesAreDeliveredInOrder : busy.WellFormed ∧ busy.accountedBytes.length = 3 := by decide

theorem test_meets_EachOverflowCostsOneTick : busy.WellFormed ∧ roomy.WellFormed := by decide

theorem test_meets_StaleSampleIsRetriedUntilDelivered :
    busy.WellFormed ∧ busy.stall = true ∧ busy.sq.length = busy.params.sqCap ∧ busy.sq = 0#12 :: [4095#12] := by decide

theorem test_meets_UndrainedQueueFillsThenStalls : small.WellFormed ∧ busy.WellFormed := by decide

end Sys2Proof.Tests
end

/-! The architectural state (10_state.md): what writes `stall` (rule R32), and the reset values (rule R39). -/

namespace Sys2Proof.Machine

/-! ### `stall` (10_state.md rule R32) -/

/-- The push of a `TICK` leaves `stall` at 1 exactly when the SampleQueue had no room. -/
theorem State.enqueueHeld_stall (s : State) (lab : Sample → PushResult → Label) :
    (s.enqueueHeld lab).stall = true ↔ s.params.sqCap ≤ s.sq.length := by
  by_cases h : s.sq.length < s.params.sqCap
  · simp [State.enqueueHeld_room lab h, h]
  · simp [State.enqueueHeld_full lab h, Nat.le_of_not_lt h]

/-- The queue and its capacity are those before the `TICK`, since a computing tick writes only the bank and `held`
ahead of its push. -/
theorem execTick_stall {s t : State} (h : execTick s = .next t) :
    t.stall = true ↔ s.params.sqCap ≤ s.sq.length := by
  obtain ⟨-, rfl⟩ | ⟨-, acc, bank, -, rfl⟩ := execTick_cases h
  · exact s.enqueueHeld_stall .retry
  · exact ((s.withBank bank).withHeld (sat12 acc)).enqueueHeld_stall .compute

/-- The frame of `stall`: only `TICK` among the operations writes it. -/
theorem exec_stall_of_ne_tick {s t : State} {i : Instr} (hi : i ≠ .tick) (h : exec i s = .next t) :
    t.stall = s.stall := by
  cases i with
  | nop => rw [execNop_cases h]; simp
  | tick => exact absurd rfl hi
  | tx => obtain ⟨-, rfl⟩ | ⟨r, q, -, rfl⟩ := execTx_cases h <;> simp
  | noteon n v => obtain ⟨-, rfl⟩ | ⟨-, rfl⟩ := execNoteon_cases (v := v) h <;> simp
  | noteoff n => obtain ⟨-, rfl⟩ | ⟨k, -, rfl⟩ := execNoteoff_cases h <;> simp
  | prog c => obtain ⟨w, -, rfl⟩ | ⟨-, rfl⟩ := execProg_cases h <;> simp
  | rxbyte b => obtain ⟨-, rfl⟩ | ⟨-, rfl⟩ := execRxbyte_cases h <;> simp
  | cpop => obtain ⟨-, rfl⟩ | ⟨b, q, -, rfl⟩ := execCpop_cases h <;> simp

@[simp] theorem applyReset_stall (s : State) : (applyReset s).stall = false := by
  simp [applyReset]

/-- Settles O41: `TICK` by its push, every other operation by its frame, reset by the reset value. -/
theorem stallIsTheLastEnqueueFailure : Obligations.StallIsTheLastEnqueueFailure := by
  refine ⟨fun s t i h => ⟨?_, fun hi => exec_stall_of_ne_tick hi h⟩, applyReset_stall⟩
  rintro rfl
  exact execTick_stall h

/-! ### The reset values (10_state.md rule R39) -/

/-- `State.reset` is the reset state of one choice of the parameters. -/
theorem State.reset_eq_resetWith : State.reset = State.resetWith Params.default := rfl

theorem Voice.reset_fields :
    Voice.reset.enabled = false ∧ Voice.reset.waveform = .square ∧ Voice.reset.phase = 0#16 ∧
      Voice.reset.period = 0#16 ∧ Voice.reset.note = 0#8 := ⟨rfl, rfl, rfl, rfl, rfl⟩

/-- Settles O14: both forms of the reset state are `State.resetWith` of some parameters, and its fields read as the
table of R39 says for every one of them. -/
theorem resetValues : Obligations.ResetValues := by
  intro s hs
  obtain ⟨p, rfl⟩ : ∃ p : Params, s = State.resetWith p :=
    hs.elim id fun h => ⟨Params.default, h.trans State.reset_eq_resetWith⟩
  refine ⟨fun i => ?_, State.resetWith_program p, State.resetWith_rr p, State.resetWith_stall p,
    State.resetWith_held p, State.resetWith_sq p, State.resetWith_cq p⟩
  rw [State.resetWith_bank, VoiceBank.reset_get]
  exact Voice.reset_fields

end Sys2Proof.Machine

/-! The queues (20_memory.md): the four primitives (rules R52 to R54). -/

namespace Sys2Proof.Machine

/-! ### A primitive that does not move its queue changes no state -/

@[simp] theorem State.withSq_self (s : State) : s.withSq s.sq = s := rfl

@[simp] theorem State.withCq_self (s : State) : s.withCq s.cq = s := rfl

/-- `SQ.push` on a full queue, in the form of rule R52: no field changes. -/
theorem State.sqPush_full_unchanged {s : State} (x : Sample) (h : ¬ s.sq.length < s.params.sqCap) :
    s.sqPush x = (s, .full) := by
  rw [State.sqPush_full x h, State.withSq_self]

/-- `SQ.pop` on the empty queue, in the form of rule R53: no field changes. -/
theorem State.sqPop_nil_unchanged {s : State} (h : s.sq = []) : s.sqPop = (none, s) := by
  rw [State.sqPop_nil h, ← h, State.withSq_self]

/-- `CQ.push` on a full queue, in the form of rule R54: no field changes. -/
theorem State.cqPush_full_unchanged {s : State} (b : Byte) (h : ¬ s.cq.length < s.params.cqCap) :
    s.cqPush b = (s, .full) := by
  rw [State.cqPush_full b h, State.withCq_self]

/-- `CQ.pop` on the empty queue, in the form of rule R54: no field changes. -/
theorem State.cqPop_nil_unchanged {s : State} (h : s.cq = []) : s.cqPop = (none, s) := by
  rw [State.cqPop_nil h, ← h, State.withCq_self]

/-- Settles O38: one law per primitive and case, first the SampleQueue's, then the ControlQueue's. -/
theorem queuePrimitives : Obligations.QueuePrimitives := by
  intro s
  exact ⟨fun x => State.sqPush_room x, fun x => State.sqPush_full_unchanged x,
    State.sqPop_nil_unchanged, fun _ _ => State.sqPop_cons,
    fun b => State.cqPush_room b, fun b => State.cqPush_full_unchanged b,
    State.cqPop_nil_unchanged, fun _ _ => State.cqPop_cons⟩

end Sys2Proof.Machine

/-! The encoding (30_encoding.md): the opcode map (rule R73) as conditions on the fields of rule R71, the five steps
of decoding (rule R74), the reserved space (rule R77) and the pseudo-operations (rule R81). -/

namespace Sys2Proof

/-! ### A word and its fields (30_encoding.md rule R71) -/

/-- The four fields cover the word. -/
theorem append_fields (w : OpWord) : opField w ++ rsvField w ++ fieldA w ++ fieldB w = w := by
  have hop : opField w ++ rsvField w = w.extractLsb' 16 16 :=
    BitVec.extractLsb'_append_extractLsb'_eq_extractLsb' rfl
  have hA : w.extractLsb' 16 16 ++ fieldA w = w.extractLsb' 8 24 :=
    BitVec.extractLsb'_append_extractLsb'_eq_extractLsb' rfl
  rw [hop, hA]
  exact BitVec.extractLsb'_append_extractLsb'

theorem word_eq_iff_fields {v w : OpWord} :
    v = w ↔ opField v = opField w ∧ rsvField v = rsvField w ∧ fieldA v = fieldA w ∧ fieldB v = fieldB w := by
  constructor
  · rintro rfl
    exact ⟨rfl, rfl, rfl, rfl⟩
  · rintro ⟨hop, hrsv, hA, hB⟩
    rw [← append_fields v, hop, hrsv, hA, hB, append_fields]

/-- A mask acts on each field by itself. -/
theorem and_eq_iff_fields {w m k : OpWord} :
    w &&& m = k ↔ opField w &&& opField m = opField k ∧ rsvField w &&& rsvField m = rsvField k ∧
      fieldA w &&& fieldA m = fieldA k ∧ fieldB w &&& fieldB m = fieldB k := by
  simp only [word_eq_iff_fields, opField, rsvField, fieldA, fieldB, BitVec.extractLsb'_and]

/-- The selector of `PROG` is the low end of the field `A`. -/
theorem append_wselField (w : OpWord) : w.extractLsb' 10 6 ++ wselField w = fieldA w :=
  BitVec.extractLsb'_append_extractLsb'_eq_extractLsb' rfl

/-- The mask of `PROG` on the field `A` reads the six bits above the selector. -/
theorem fieldA_and_fc (w : OpWord) : fieldA w &&& 0xFC#8 = 0#8 ↔ w.extractLsb' 10 6 = 0#6 := by
  have hmask : fieldA w &&& (BitVec.allOnes 6 ++ 0#2) = w.extractLsb' 10 6 ++ 0#2 := by
    rw [← append_wselField, BitVec.and_append, BitVec.and_allOnes, BitVec.and_zero]
  exact (Eq.congr_left hmask).trans (BitVec.append_left_inj (s₂ := 0#6) 0#2)

/-! ### The rows of the opcode map (30_encoding.md rules R72, R73) -/

/-- The `op` column of the opcode map. -/
def Opcode.number : Opcode → BitVec 4
  | .nop => 0x0#4
  | .tick => 0x1#4
  | .tx => 0x2#4
  | .noteon => 0x3#4
  | .noteoff => 0x4#4
  | .prog => 0x5#4
  | .rxbyte => 0x6#4
  | .cpop => 0x7#4

theorem Opcode.ofField_number (o : Opcode) : Opcode.ofField o.number = some o := by
  cases o <;> rfl

/-- No two rows overlap (30_encoding.md rule R73). -/
theorem Opcode.number_injective : Function.Injective Opcode.number := fun o o' h =>
  Option.some.inj <| o.ofField_number.symm.trans <| (congrArg Opcode.ofField h).trans o'.ofField_number

/-- The rows are numbered 0 to 7. -/
theorem Opcode.number_lt (o : Opcode) : o.number.toNat < 8 := by
  cases o <;> decide

theorem Opcode.ofField_eq_none {op : BitVec 4} (h : 8 ≤ op.toNat) : Opcode.ofField op = none := by
  revert op
  decide

/-- The must-be-zero operand fields of a row, by its format (30_encoding.md rule R72). -/
def Opcode.OperandsZero (w : OpWord) : Opcode → Prop
  | .nop | .tick | .tx | .cpop => fieldA w = 0#8 ∧ fieldB w = 0#8
  | .noteon => True
  | .noteoff => fieldB w = 0#8
  | .prog => w.extractLsb' 10 6 = 0#6 ∧ fieldB w = 0#8
  | .rxbyte => fieldA w = 0#8

/-- The rows of format `Z` are those without operands. -/
theorem Opcode.OperandsZero.of_format_Z {w : OpWord} {o : Opcode} (h : o.OperandsZero w)
    (ho : o.number ∈ [0x0#4, 0x1#4, 0x2#4, 0x7#4]) : fieldA w = 0#8 ∧ fieldB w = 0#8 := by
  cases o with
  | nop | tick | tx | cpop => exact h
  | noteon | noteoff | prog | rxbyte => exact absurd ho (by decide)

/-- Every mask covers `op` and `rsv`, and every match column has `op` as its only field that is not zero. -/
theorem Opcode.row_fields (o : Opcode) :
    (opField o.maskWord = BitVec.allOnes 4 ∧ rsvField o.maskWord = BitVec.allOnes 12) ∧
      opField o.matchWord = o.number ∧ rsvField o.matchWord = 0#12 ∧ fieldA o.matchWord = 0#8 ∧
      fieldB o.matchWord = 0#8 := by
  cases o <;> decide

/-- On the operands, the mask of a row covers the must-be-zero fields of its format. -/
theorem Opcode.mask_operands_iff (w : OpWord) (o : Opcode) :
    fieldA w &&& fieldA o.maskWord = 0#8 ∧ fieldB w &&& fieldB o.maskWord = 0#8 ↔ o.OperandsZero w := by
  have and_ones (x : BitVec 8) : x &&& 0xFF#8 = 0#8 ↔ x = 0#8 := Eq.congr_left BitVec.and_allOnes
  have and_zeros (x : BitVec 8) : x &&& 0x00#8 = 0#8 := BitVec.and_zero
  cases o with
  | nop | tick | tx | cpop => exact and_congr (and_ones _) (and_ones _)
  | noteon => exact iff_of_true ⟨and_zeros _, and_zeros _⟩ trivial
  | noteoff => exact (and_iff_right (and_zeros _)).trans (and_ones _)
  | prog => exact and_congr (fieldA_and_fc w) (and_ones _)
  | rxbyte => exact (and_iff_left (and_zeros _)).trans (and_ones _)

/-- A row's mask and match say: its `op`, a zero `rsv`, and zero in the must-be-zero fields of its format. -/
theorem Opcode.mask_match_iff (w : OpWord) (o : Opcode) :
    w &&& o.maskWord = o.matchWord ↔ opField w = o.number ∧ rsvField w = 0#12 ∧ o.OperandsZero w := by
  obtain ⟨⟨hmop, hmrsv⟩, hop, hrsv, hA, hB⟩ := o.row_fields
  rw [and_eq_iff_fields, hmop, hmrsv, hop, hrsv, hA, hB, BitVec.and_allOnes, BitVec.and_allOnes,
    mask_operands_iff]

/-! ### The operands (30_encoding.md rules R74 steps 4 and 5, R75) -/

theorem operandsOf_prog_three {w : OpWord} (h : wselField w = 3#2) :
    operandsOf w .prog = .reserved .selectorThree := if_pos h

theorem operandsOf_prog {w : OpWord} (h : wselField w ≠ 3#2) :
    operandsOf w .prog = .op (.prog (wselField w)) := if_neg h

theorem operandsOf_answers {w : OpWord} {o : Opcode} (h : ¬(o = .prog ∧ wselField w = 3#2)) :
    ∃ i : Instr, operandsOf w o = .op i ∧ i.opcode = o := by
  cases o with
  | nop | tick | tx | noteon | noteoff | rxbyte | cpop => exact ⟨_, rfl, rfl⟩
  | prog => exact ⟨_, operandsOf_prog fun hsel => h ⟨rfl, hsel⟩, rfl⟩

/-- What the fifth step answers is an operation of the selected row, which is not `PROG` with selector 3. -/
theorem operandsOf_eq_op {w : OpWord} {o : Opcode} {i : Instr} (h : operandsOf w o = .op i) :
    i.opcode = o ∧ ¬(o = .prog ∧ wselField w = 3#2) := by
  have hsel : ¬(o = .prog ∧ wselField w = 3#2) := by
    rintro ⟨rfl, hw⟩
    rw [operandsOf_prog_three hw] at h
    cases h
  obtain ⟨j, hj, hjo⟩ := operandsOf_answers hsel
  obtain rfl : i = j := Decoded.op.inj (h.symm.trans hj)
  exact ⟨hjo, hsel⟩

theorem operandsOf_noteon_iff {w : OpWord} {p : Pitch} {v : Velocity} :
    operandsOf w .noteon = .op (.noteon p v) ↔ p = fieldA w ∧ v = fieldB w := by
  simp [operandsOf, eq_comm]

theorem operandsOf_noteoff_iff {w : OpWord} {p : Pitch} :
    operandsOf w .noteoff = .op (.noteoff p) ↔ p = fieldA w := by
  simp [operandsOf, eq_comm]

theorem operandsOf_prog_iff {w : OpWord} {c : BitVec 2} :
    operandsOf w .prog = .op (.prog c) ↔ wselField w ≠ 3#2 ∧ c = wselField w := by
  by_cases h : wselField w = 3#2
  · simp [operandsOf_prog_three h, h]
  · simp [operandsOf_prog h, h, eq_comm]

theorem operandsOf_rxbyte_iff {w : OpWord} {b : Byte} :
    operandsOf w .rxbyte = .op (.rxbyte b) ↔ b = fieldB w := by
  simp [operandsOf, eq_comm]

/-! ### The steps of decoding (30_encoding.md rule R74) -/

theorem decode_of_rsv_ne {w : OpWord} (h : rsvField w ≠ 0#12) : decode w = .reserved .rsvNotZero :=
  if_pos h

theorem decode_of_no_row {w : OpWord} (hrsv : rsvField w = 0#12) (h : Opcode.ofField (opField w) = none) :
    decode w = .reserved .noSuchOpcode := by
  simp [decode, hrsv, h]

theorem decode_of_row {w : OpWord} {o : Opcode} (hrsv : rsvField w = 0#12) (hop : opField w = o.number) :
    decode w = if w &&& o.maskWord ≠ o.matchWord then .reserved .operandNotZero else operandsOf w o := by
  simp only [decode, hrsv, hop, Opcode.ofField_number, ne_eq, not_true_eq_false, if_false]

theorem decode_of_mask_ne {w : OpWord} {o : Opcode} (hrsv : rsvField w = 0#12) (hop : opField w = o.number)
    (h : w &&& o.maskWord ≠ o.matchWord) : decode w = .reserved .operandNotZero :=
  (decode_of_row hrsv hop).trans (if_pos h)

/-- A row's match alone brings decoding to its operands: it includes the row's `op` and the zero `rsv`. -/
theorem decode_of_mask_eq {w : OpWord} {o : Opcode} (h : w &&& o.maskWord = o.matchWord) :
    decode w = operandsOf w o := by
  obtain ⟨hop, hrsv, -⟩ := (o.mask_match_iff w).mp h
  exact (decode_of_row hrsv hop).trans (if_neg (not_not.mpr h))

/-- The rule R73 for every operation: the mask and match of its row, and its operands. -/
theorem decode_eq_op_iff (w : OpWord) (i : Instr) :
    decode w = .op i ↔ w &&& i.opcode.maskWord = i.opcode.matchWord ∧ operandsOf w i.opcode = .op i := by
  constructor
  · intro h
    simp only [decode] at h
    split at h
    · cases h
    · split at h
      · cases h
      · next o _ =>
        split at h
        · cases h
        · next hmask =>
          obtain ⟨rfl, -⟩ := operandsOf_eq_op h
          exact ⟨not_not.mp hmask, h⟩
  · rintro ⟨hmask, hops⟩
    exact (decode_of_mask_eq hmask).trans hops

/-- The fields of a word that spells an operation (30_encoding.md rules R72, R73). -/
theorem decode_eq_op_fields {w : OpWord} {i : Instr} (h : decode w = .op i) :
    opField w = i.opcode.number ∧ rsvField w = 0#12 ∧ i.opcode.OperandsZero w ∧
      ¬(i.opcode = .prog ∧ wselField w = 3#2) := by
  obtain ⟨hmask, hops⟩ := (decode_eq_op_iff w i).mp h
  obtain ⟨hop, hrsv, hzero⟩ := (Opcode.mask_match_iff w _).mp hmask
  exact ⟨hop, hrsv, hzero, (operandsOf_eq_op hops).2⟩

/-- Settles O1: `decode_eq_op_iff` at each row, with the row's operands read off `operandsOf`. -/
theorem decodingFollowsTheOpcodeMap : Obligations.DecodingFollowsTheOpcodeMap := by
  intro w
  have row := decode_eq_op_iff w
  exact ⟨(row .nop).trans (and_iff_left rfl), (row .tick).trans (and_iff_left rfl),
    (row .tx).trans (and_iff_left rfl),
    fun p v => (row (.noteon p v)).trans (and_congr_right' operandsOf_noteon_iff),
    fun p => (row (.noteoff p)).trans (and_congr_right' operandsOf_noteoff_iff),
    fun c => (row (.prog c)).trans (and_congr_right' operandsOf_prog_iff),
    fun b => (row (.rxbyte b)).trans (and_congr_right' operandsOf_rxbyte_iff),
    (row .cpop).trans (and_iff_left rfl)⟩

/-- The rows of the opcode map in the order of rule R73. -/
def Opcode.all : List Opcode := [.nop, .tick, .tx, .noteon, .noteoff, .prog, .rxbyte, .cpop]

/-- One row of the opcode map: `op`, mnemonic, match, mask. -/
def Opcode.row (o : Opcode) : BitVec 4 × Opcode × OpWord × OpWord := (o.number, o, o.matchWord, o.maskWord)

/-- Settles O2: the table's rows are those of the model's columns, so each step is its lemma at one row. -/
theorem decodingTakesTheFiveSteps : Obligations.DecodingTakesTheFiveSteps := by
  unfold Obligations.DecodingTakesTheFiveSteps
  intro rows w
  have hrows : rows = Opcode.all.map Opcode.row := rfl
  refine ⟨decode_of_rsv_ne, fun hrsv => ⟨fun h => decode_of_no_row hrsv (Opcode.ofField_eq_none h), ?_⟩⟩
  rw [hrows, List.forall_mem_map]
  intro o _ hop
  refine ⟨decode_of_mask_ne hrsv hop, fun hmask => ⟨?_, fun hsel => ?_⟩⟩
  · rintro ⟨rfl, hsel⟩
    exact (decode_of_mask_eq hmask).trans (operandsOf_prog_three hsel)
  · rw [decode_of_mask_eq hmask]
    exact operandsOf_answers hsel

/-! ### The reserved space (30_encoding.md rule R77) -/

/-- The reserved space as rule R77 lists it: `op` 8 to 15; `rsv` not zero; a must-be-zero field of a known `op` not
zero, format by format; `PROG` with selector 3. -/
def ReservedSpace (w : OpWord) : Prop :=
  8 ≤ (opField w).toNat ∨ rsvField w ≠ 0#12 ∨
    (opField w ∈ [0x0#4, 0x1#4, 0x2#4, 0x7#4] ∧ (fieldA w ≠ 0#8 ∨ fieldB w ≠ 0#8)) ∨
    (opField w = 0x4#4 ∧ fieldB w ≠ 0#8) ∨
    (opField w = 0x5#4 ∧ (w.extractLsb' 10 6 ≠ 0#6 ∨ fieldB w ≠ 0#8 ∨ wselField w = 3#2)) ∨
    (opField w = 0x6#4 ∧ fieldA w ≠ 0#8)

/-- Each kind of reserved word contradicts one of the fields that an operation's word has. -/
theorem decode_ne_op_of_reservedSpace {w : OpWord} (hspace : ReservedSpace w) (i : Instr) : decode w ≠ .op i := by
  intro hi
  obtain ⟨hop, hrsv, hzero, hsel⟩ := decode_eq_op_fields hi
  have row {o : Opcode} (h : opField w = o.number) : i.opcode = o :=
    Opcode.number_injective (hop.symm.trans h)
  rcases hspace with h | h | ⟨h, hAB⟩ | ⟨h, hB⟩ | ⟨h, hprog⟩ | ⟨h, hA⟩
  · exact Nat.not_lt.mpr h ((congrArg BitVec.toNat hop).trans_lt i.opcode.number_lt)
  · exact h hrsv
  · obtain ⟨hA, hB⟩ := hzero.of_format_Z (hop ▸ h)
    exact hAB.elim (fun hne => hne hA) fun hne => hne hB
  · rw [row (o := .noteoff) h] at hzero
    exact hB hzero
  · have hrow : i.opcode = .prog := row h
    rw [hrow] at hzero
    obtain ⟨hhigh, hB⟩ := hzero
    rcases hprog with hne | hne | hthree
    · exact hne hhigh
    · exact hne hB
    · exact hsel ⟨hrow, hthree⟩
  · rw [row (o := .rxbyte) h] at hzero
    exact hA hzero

/-- A word that spells no operation is reserved. -/
theorem decode_reserved_of_not_op {w : OpWord} (h : ∀ i : Instr, decode w ≠ .op i) :
    ∃ why, decode w = .reserved why := by
  cases hd : decode w with
  | op i => exact absurd hd (h i)
  | reserved why => exact ⟨why, rfl⟩

/-! ### The pseudo-operations (30_encoding.md rule R81) -/

theorem decode_encode_rxbyte (b : Byte) : decode (encode (.rxbyte b)) = .op (.rxbyte b) := by
  have hmask : encode (.rxbyte b) &&& Opcode.rxbyte.maskWord = Opcode.rxbyte.matchWord :=
    (Opcode.mask_match_iff _ .rxbyte).mpr
      ⟨opField_assembleWord _ _ _, rsvField_assembleWord _ _ _, fieldA_assembleWord _ _ _⟩
  exact (decode_eq_op_iff _ _).mpr ⟨hmask, operandsOf_rxbyte_iff.mpr (fieldB_assembleWord _ _ _).symm⟩

end Sys2Proof

namespace Sys2Proof.Machine

/-- Settles O7: the repeated words are those of the opcode map, and each word of a burst decodes to its byte. -/
theorem pseudoOperationsExpand : Obligations.PseudoOperationsExpand := by
  refine ⟨fun _ => rfl, fun _ => rfl, fun _ => rfl, fun bs => ?_⟩
  rw [AsmLine.expand, List.map_map]
  exact List.map_congr_left fun b _ => decode_encode_rxbyte b

/-! ### A word at the port (30_encoding.md rules R74, R77) -/

/-- A step at a well-formed state does what the word presented next decodes to. -/
theorem step_word {s : State} {w : OpWord} {rest : List Input} (hs : s.WellFormed) (hin : s.inputs = .op w :: rest) :
    step s = execDecoded (decode w) (s.withInputs rest) := by
  have hs' : (s.withInputs rest).WellFormed := hs
  rw [step, stepPort, hin]
  exact if_pos hs'

theorem step_reserved {s : State} {w : OpWord} {rest : List Input} {why : ReservedKind} (hs : s.WellFormed)
    (hin : s.inputs = .op w :: rest) (hw : decode w = .reserved why) :
    step s = .next ((s.withInputs rest).withLabel .reserved) := by
  rw [step_word hs hin, hw, execDecoded, execReserved, reservedNoOp_eq]

/-- Settles O10: a word of the reserved space decodes to `reserved`, and the step does nothing but say so. -/
theorem reservedWordChangesNothing : Obligations.ReservedWordChangesNothing := by
  intro s w rest hs hin hspace
  obtain ⟨why, hw⟩ := decode_reserved_of_not_op (decode_ne_op_of_reservedSpace hspace)
  exact step_reserved hs hin hw

end Sys2Proof.Machine

/-! The waveforms (40_waveform.md): the ratio (rule R91), the three shapes (rules R94 to R96), the phase sequence of a
voice (rule R98) and the voice step (rule R99). -/

namespace Sys2Proof.Machine

/-! ### The ratio, by its numerator (40_waveform.md rules R91, R92) -/

theorem ratio_zero (scale : Nat) {den : Nat} (pos : 0 < den) : ratio scale 0 den pos = 0 :=
  Nat.zero_div den

theorem ratio_self (scale : Nat) {den : Nat} (pos : 0 < den) : ratio scale den den pos = scale :=
  Nat.mul_div_cancel scale pos

theorem ratio_mono (scale : Nat) {a b den : Nat} (pos : 0 < den) (h : a ≤ b) :
    ratio scale a den pos ≤ ratio scale b den pos :=
  Nat.div_le_div_right (Nat.mul_le_mul_left scale h)

theorem ratio_lt {scale num den : Nat} (pos : 0 < den) (hs : 0 < scale) (h : num < den) :
    ratio scale num den pos < scale :=
  (Nat.div_lt_iff_lt_mul pos).mpr (Nat.mul_lt_mul_of_pos_left h hs)

/-- The ratio at the last phase of a period: one ceiled share below the scale. -/
theorem ratio_pred {scale den : Nat} (pos : 0 < den) (hs : 0 < scale) :
    ratio scale (den - 1) den pos = scale - (scale + den - 1) / den := by
  have hlt : scale - 1 < den * scale := by
    have := Nat.le_mul_of_pos_left scale pos
    omega
  have hceil : (scale + den - 1) / den = (scale - 1) / den + 1 := by
    rw [← Nat.add_div_right _ pos, Nat.sub_add_comm hs]
  calc scale * (den - 1) / den
      = (den * scale - (scale - 1 + 1)) / den := by
        rw [Nat.mul_sub_one, Nat.mul_comm, Nat.sub_add_cancel hs]
    _ = scale - ((scale - 1) / den + 1) := Nat.mul_sub_div _ _ _ hlt
    _ = scale - (scale + den - 1) / den := by rw [hceil]

/-! ### Square (40_waveform.md rule R94) -/

theorem square_eq_high_iff (phase period : Nat) : square phase period = 1023 ↔ phase ≤ period / 2 := by
  unfold square half
  split <;> simp_all

/-- The high phases of a period are its first `Half + 1`. -/
theorem filter_square_high {period : Nat} (pos : 0 < period) :
    ((List.range period).filter fun phase => square phase period == 1023) = List.range (period / 2 + 1) := by
  have hlt : period / 2 + 1 ≤ period := Nat.div_lt_self pos (by decide)
  calc ((List.range period).filter fun phase => square phase period == 1023)
      = (List.range period).filter fun phase => decide (phase < period / 2 + 1) :=
        List.filter_congr fun phase _ => by
          rw [beq_eq_decide, decide_eq_decide, square_eq_high_iff, Nat.lt_succ_iff]
    _ = List.range (period / 2 + 1) := by
        rw [← List.Ico.zero_bot, List.Ico.filter_lt_of_ge hlt, List.Ico.zero_bot]

/-- Settles O27: the duty cycle is the length of the list of high phases. -/
theorem squareIsHighForTheFirstHalf : Obligations.SquareIsHighForTheFirstHalf := by
  refine ⟨fun _ _ _ _ => rfl, fun period pos => ⟨?_, by omega⟩, by decide⟩
  rw [filter_square_high pos, List.length_range]

/-! ### Saw (40_waveform.md rule R95) -/

theorem saw_mono {a b period : Nat} (pos : 0 < period) (h : a ≤ b) : saw a period pos ≤ saw b period pos :=
  ratio_mono _ pos h

theorem saw_last {period : Nat} (pos : 0 < period) :
    saw (period - 1) period pos = 1023 - (1023 + period - 1) / period :=
  ratio_pred pos (by decide)

/-- From period 1023 upward the ceiled share of one phase is 1. -/
theorem saw_last_of_long {period : Nat} (pos : 0 < period) (h : 1023 ≤ period) :
    saw (period - 1) period pos = 1022 := by
  have hceil : (1023 + period - 1) / period = 1 := Nat.div_eq_of_lt_le (by omega) (by omega)
  rw [saw_last, hceil]

/-- Settles O28: Saw is the ratio of the phase itself, so each part is a law of the ratio. -/
theorem sawRisesFromZeroBelowHigh : Obligations.SawRisesFromZeroBelowHigh :=
  ⟨fun _ _ _ => rfl, fun _ pos => ratio_zero _ pos, fun _ _ _ pos h _ => saw_mono pos h,
    fun _ _ pos h => ⟨ratio_lt pos (by decide) h, saw_mono pos (Nat.le_sub_one_of_lt h)⟩,
    fun _ pos => ⟨saw_last pos, saw_last_of_long pos⟩, by decide⟩

/-! ### Triangle (40_waveform.md rule R96) -/

/-- Both branches at once: Triangle rises with the distance of the phase from the nearer end of the period. -/
theorem triangle_eq_ratio_min (phase period : Nat) (pos : 0 < period) :
    triangle phase period pos = ratio 1023 (2 * min phase (period - phase)) period pos := by
  unfold triangle half
  split
  · rw [Nat.min_eq_left (by omega), Config.high_eq]
  · rw [Nat.min_eq_right (by omega), Config.high_eq]

theorem triangle_le_of_min_le {a b period : Nat} (pos : 0 < period)
    (h : min a (period - a) ≤ min b (period - b)) : triangle a period pos ≤ triangle b period pos := by
  rw [triangle_eq_ratio_min, triangle_eq_ratio_min]
  exact ratio_mono _ pos (Nat.mul_le_mul_left 2 h)

theorem triangle_peak_even {period : Nat} (pos : 0 < period) (h : period % 2 = 0) :
    triangle (period / 2) period pos = 1023 := by
  have hmin : 2 * min (period / 2) (period - period / 2) = period := by omega
  rw [triangle_eq_ratio_min, hmin, ratio_self]

/-- In an odd period the nearer end is at most `Half` away, and it is that far at `Half` and at `Half + 1`. -/
theorem triangle_peak_odd {phase period : Nat} (pos : 0 < period) (h : period % 2 = 1)
    (hp : phase = period / 2 ∨ phase = period / 2 + 1) :
    triangle phase period pos = 1023 * (period - 1) / period := by
  have hmin : 2 * min phase (period - phase) = period - 1 := by omega
  rw [triangle_eq_ratio_min, hmin, ratio]

theorem triangle_le_peak_odd (phase : Nat) {period : Nat} (pos : 0 < period) (h : period % 2 = 1) :
    triangle phase period pos ≤ 1023 * (period - 1) / period := by
  rw [← triangle_peak_odd pos h (.inl rfl)]
  exact triangle_le_of_min_le pos (by omega)

theorem triangle_zero {period : Nat} (pos : 0 < period) : triangle 0 period pos = 0 := by
  rw [triangle_eq_ratio_min, Nat.zero_min]
  exact ratio_zero _ pos

/-- Settles O29: rise, fall and peaks by the distance to the nearer end of the period. -/
theorem triangleRisesThenFalls : Obligations.TriangleRisesThenFalls := by
  refine ⟨fun _ _ _ _ => rfl, fun phase period pos _ => triangle_le_high phase period pos, ?rising, ?falling,
    fun _ pos => triangle_peak_even pos, ?odd, fun _ pos => triangle_zero pos, by decide⟩
  case rising => exact fun a b period pos hab hb => triangle_le_of_min_le pos (by omega)
  case falling => exact fun a b period pos ha hab hb => triangle_le_of_min_le pos (by omega)
  case odd =>
    exact fun period pos h => ⟨triangle_peak_odd pos h (.inl rfl), fun _ => triangle_peak_odd pos h (.inr rfl),
      fun phase _ => triangle_le_peak_odd phase pos h⟩

/-! ### The phase sequence (40_waveform.md rule R98) -/

/-- The advance counts modulo the period. -/
theorem advance_toNat_eq_mod {phase period : Period} (h : phase.toNat < period.toNat) :
    (advance phase period).toNat = (phase.toNat + 1) % period.toNat := by
  rw [advance_toNat h]
  split
  · next hwrap => rw [hwrap, Nat.mod_self]
  · next hin => exact (Nat.mod_eq_of_lt (by omega)).symm

theorem iterate_advance_toNat {period : Period} (pos : 0 < period.toNat) (k : Nat) :
    ((fun phase => advance phase period)^[k] 0#16).toNat = k % period.toNat := by
  induction k with
  | zero => exact (Nat.zero_mod _).symm
  | succ k ih =>
    rw [Function.iterate_succ_apply', advance_toNat_eq_mod (ih ▸ Nat.mod_lt k pos), ih, Nat.mod_add_mod]

/-- Settles O30: one advance by its law, the sequence by induction on the number of advances. -/
theorem phaseAdvancesModuloThePeriod : Obligations.PhaseAdvancesModuloThePeriod := by
  refine ⟨fun phase period h => ⟨?_, advance_lt h⟩, fun _ k pos => iterate_advance_toNat pos k⟩
  have hwrap : phase.toNat + 1 ≥ period.toNat ↔ phase.toNat + 1 = period.toNat := by omega
  simp only [advance_toNat h, hwrap]

/-! ### The voice step (40_waveform.md rule R99) -/

/-- Settles O31: the two laws of the voice step, and the worked example at its last phase. -/
theorem voiceStepOutputsThenAdvances : Obligations.VoiceStepOutputsThenAdvances :=
  ⟨fun _ => voiceStep_disabled, fun _ pos he h => voiceStep_enabled he pos h,
    voiceStep_enabled rfl (by decide) (by decide)⟩

end Sys2Proof.Machine

/-! The synthesis tick (41_tick_mix_enqueue.md): the saturation of a sample (rule R111), and the retry and the
computing tick with their whole next states (rule R113). -/

namespace Sys2Proof.Machine

/-- Settles O35: the law of `sat12`. -/
theorem sampleSaturatesAtFullScale : Obligations.SampleSaturatesAtFullScale := sat12_toNat

/-! ### One voice of a tick, by the rules' words (40_waveform.md rules R94 to R99) -/

/-- What a voice puts out in a tick: 0 when disabled, else its waveform at its phase before the advance. -/
def Voice.output (v : Voice) : Nat :=
  if v.enabled = false then 0
  else
    match v.waveform with
    | .square => if v.phase.toNat ≤ v.period.toNat / 2 then 1023 else 0
    | .saw => 1023 * v.phase.toNat / v.period.toNat
    | .triangle =>
      if v.phase.toNat ≤ v.period.toNat / 2 then 1023 * (2 * v.phase.toNat) / v.period.toNat
      else 1023 * (2 * (v.period.toNat - v.phase.toNat)) / v.period.toNat

/-- The voice after a tick: the phase of an enabled voice moves on and wraps, and nothing else changes. -/
def Voice.advanced (v : Voice) : Voice :=
  { v with phase := if v.enabled = false then v.phase
                    else if v.phase.toNat + 1 ≥ v.period.toNat then 0#16 else BitVec.ofNat 16 (v.phase.toNat + 1) }

theorem Voice.output_of_disabled {v : Voice} (h : v.enabled = false) : v.output = 0 := if_pos h

/-- The output of an enabled voice is the `Wave` of rule R97, one definition per waveform. -/
theorem Voice.output_of_enabled {v : Voice} (h : v.enabled = true) (pos : 0 < v.period.toNat) :
    v.output = wave v.waveform v.phase.toNat v.period.toNat pos := by
  obtain ⟨enabled, waveform, phase, period, note⟩ := v
  obtain rfl : enabled = true := h
  cases waveform with
  | square => rfl
  | saw => rfl
  | triangle => rfl

theorem Voice.advanced_of_disabled {v : Voice} (h : v.enabled = false) : v.advanced = v := by
  rw [Voice.advanced, if_pos h]

/-- The advance of rule R98, its sum written as a number. -/
theorem advance_eq_ofNat (phase period : Period) :
    advance phase period = if phase.toNat + 1 ≥ period.toNat then 0#16 else BitVec.ofNat 16 (phase.toNat + 1) := by
  rw [advance, BitVec.ofNat_add, BitVec.ofNat_toNat, BitVec.setWidth_eq]

theorem Voice.advanced_of_enabled {v : Voice} (h : v.enabled = true) :
    v.advanced = { v with phase := advance v.phase v.period } := by
  rw [Voice.advanced, if_neg (by simp [h]), advance_eq_ofNat]

/-- On a voice that meets the voice invariant the step of rule R99 gives that output and that voice. -/
theorem voiceStep_eq_output_advanced {v : Voice} (h : v.WellFormed) : voiceStep v = .ok (v.output, v.advanced) := by
  cases he : v.enabled with
  | false => rw [voiceStep_disabled he, Voice.output_of_disabled he, Voice.advanced_of_disabled he]
  | true =>
    obtain ⟨pos, hlt⟩ := h he
    rw [voiceStep_enabled he pos hlt, Voice.output_of_enabled he pos, Voice.advanced_of_enabled he]

/-! ### The mixer (41_tick_mix_enqueue.md rule R110) -/

/-- The bank with every voice advanced. -/
def VoiceBank.advanced (b : VoiceBank) : VoiceBank :=
  ⟨b.v0.advanced, b.v1.advanced, b.v2.advanced, b.v3.advanced⟩

@[simp] theorem VoiceBank.advanced_get (b : VoiceBank) (i : Slot) : b.advanced.get i = (b.get i).advanced := by
  fin_cases i <;> rfl

theorem mix_eq_output_advanced {b : VoiceBank} (h : b.VoicesWellFormed) :
    mix b = .ok ((b.get 0).output + (b.get 1).output + (b.get 2).output + (b.get 3).output, b.advanced) :=
  have stepped (i : Slot) := voiceStep_eq_output_advanced (h i)
  mix_eq_ok_iff.mpr ⟨_, _, _, _, stepped 0, stepped 1, stepped 2, stepped 3, rfl⟩

/-! ### The two kinds of tick (41_tick_mix_enqueue.md rule R113) -/

theorem exec_tick (s : State) : exec .tick s = execTick s := rfl

/-- In a stall a tick is the push of `held` alone. -/
theorem execTick_of_stall {s : State} (h : s.stall = true) : execTick s = .next (s.enqueueHeld .retry) := by
  rw [execTick, if_pos h]

/-- Outside a stall a tick mixes, holds the saturated sum and pushes it. -/
theorem execTick_of_mix {s : State} {acc : Nat} {bank : VoiceBank} (h : s.stall = false)
    (hm : mix s.bank = .ok (acc, bank)) :
    execTick s = .next (((s.withBank bank).withHeld (sat12 acc)).enqueueHeld .compute) := by
  rw [execTick, if_neg (by simp [h]), hm]

/-- Settles O17: either tick ends in the one push of `State.enqueueHeld_eq`; before it a computing tick has the mixer's
answer, whose sum and bank are the voices' outputs and advances. -/
theorem tickComputesOrRetries : Obligations.TickComputesOrRetries := by
  refine ⟨by decide, fun s hs => ?retry, fun s hs hv => ⟨s.bank.advanced, s.bank.advanced_get, ?compute⟩⟩
  case retry => rw [exec_tick, execTick_of_stall hs, State.enqueueHeld_eq]
  case compute =>
    rw [exec_tick, execTick_of_mix hs (mix_eq_output_advanced hv), State.enqueueHeld_eq]
    rfl

end Sys2Proof.Machine

/-! The control path (42_control.md): the no-ops (rules R77, R137), the byte half (rules R130, R131), the program
(rule R136), the slot that a `NOTEON` takes and writes (rules R133, R134) and the one a `NOTEOFF` silences
(rule R135). -/

namespace Sys2Proof

/-! ### The words of the control path (30_encoding.md rules R71, R72) -/

/-- The fields of an assembled word, each shifted to its place: a bit of the word is one of the field that covers it. -/
theorem assembleWord_eq_or (op : BitVec 4) (a b : BitVec 8) :
    assembleWord op a b = op.setWidth 32 <<< 28 ||| a.setWidth 32 <<< 8 ||| b.setWidth 32 := by
  apply BitVec.eq_of_getLsbD_eq
  intro i hi
  simp only [assembleWord, BitVec.getLsbD_append, BitVec.getLsbD_or, BitVec.getLsbD_shiftLeft,
    BitVec.getLsbD_setWidth]
  grind

/-- The word of `NOTEON`, as rule R133 spells it: `0x3000ppvv`. -/
theorem encode_noteon (n : Pitch) (v : Velocity) :
    encode (.noteon n v) = 0x30000000#32 ||| (n.setWidth 32 <<< 8) ||| v.setWidth 32 :=
  assembleWord_eq_or 0x3#4 n v

/-- The word of `NOTEOFF`, as rule R135 spells it: `0x4000pp00`. -/
theorem encode_noteoff (n : Pitch) : encode (.noteoff n) = 0x40000000#32 ||| (n.setWidth 32 <<< 8) :=
  (assembleWord_eq_or 0x4#4 n 0#8).trans BitVec.or_zero

/-- The word of `RXBYTE`, as rule R130 spells it: `0x600000dd`. -/
theorem encode_rxbyte (b : Byte) : encode (.rxbyte b) = 0x60000000#32 ||| b.setWidth 32 :=
  assembleWord_eq_or 0x6#4 0#8 b

/-- A word of a row's `op` whose must-be-zero operands are zero brings decoding to that row's operands. -/
theorem decode_assembleWord {o : Opcode} {a b : BitVec 8} (h : o.OperandsZero (assembleWord o.number a b)) :
    decode (assembleWord o.number a b) = operandsOf (assembleWord o.number a b) o :=
  decode_of_mask_eq <|
    (o.mask_match_iff _).mpr ⟨opField_assembleWord _ _ _, rsvField_assembleWord _ _ _, h⟩

theorem decode_encode_noteon (n : Pitch) (v : Velocity) : decode (encode (.noteon n v)) = .op (.noteon n v) :=
  (decode_assembleWord (o := .noteon) trivial).trans <|
    operandsOf_noteon_iff.mpr ⟨(fieldA_assembleWord _ _ _).symm, (fieldB_assembleWord _ _ _).symm⟩

theorem decode_encode_noteoff (n : Pitch) : decode (encode (.noteoff n)) = .op (.noteoff n) :=
  (decode_assembleWord (o := .noteoff) (fieldB_assembleWord _ _ _)).trans <|
    operandsOf_noteoff_iff.mpr (fieldA_assembleWord _ _ _).symm

end Sys2Proof

namespace Sys2Proof.Machine

/-! ### The no-ops (30_encoding.md rule R77, 42_control.md rule R137) -/

theorem exec_nop (s : State) : exec .nop s = .next (s.withLabel .nop) := rfl

theorem execDecoded_reserved (why : ReservedKind) (s : State) :
    execDecoded (.reserved why) s = .next (s.withLabel .reserved) := rfl

/-- Settles O16: `NOP` and a reserved word each write the label alone. -/
theorem nopDoesNothing : Obligations.NopDoesNothing := by
  refine ⟨by decide, exec_nop, fun s w why hw => ?_⟩
  rw [hw]
  exact execDecoded_reserved why s

/-! ### The byte half (42_control.md rules R130, R131) -/

theorem exec_rxbyte_of_room {s : State} (b : Byte) (h : s.cq.length < s.params.cqCap) :
    exec (.rxbyte b) s = .next ((s.withCq (s.cq ++ [b])).withLabel .rxAccept) := by
  rw [exec, execRxbyte, State.cqPush_room b h]

theorem exec_rxbyte_of_full {s : State} (b : Byte) (h : s.params.cqCap ≤ s.cq.length) :
    exec (.rxbyte b) s = .next (s.withLabel .rxDrop) := by
  rw [exec, execRxbyte, State.cqPush_full_unchanged b (Nat.not_lt.mpr h)]

theorem exec_cpop_of_nil {s : State} (h : s.cq = []) : exec .cpop s = .next (s.withLabel .cpopYield) := by
  rw [exec, execCpop, State.cqPop_nil_unchanged h]

theorem exec_cpop_of_cons {s : State} {b : Byte} {q : List Byte} (h : s.cq = b :: q) :
    exec .cpop s = .next (((s.withCq q).withCtl (s.ctl ++ [.ctl b])).withLabel (.cpop b)) := by
  rw [exec, execCpop, State.cqPop_cons h]
  rfl

/-- Settles O23: the word, and the two answers of the push. -/
theorem rxbyteQueuesOrDrops : Obligations.RxbyteQueuesOrDrops := by
  refine ⟨fun b => ?word, fun s b hroom => ?room, fun s b hfull => ?full⟩
  case word => rw [← encode_rxbyte, decode_encode_rxbyte]
  case room => exact exec_rxbyte_of_room b hroom
  case full => exact exec_rxbyte_of_full b hfull

/-- Settles O24: the word, and the two answers of the pop. -/
theorem cpopDeliversTheHeadOrYields : Obligations.CpopDeliversTheHeadOrYields :=
  ⟨by decide, fun _ hnil => exec_cpop_of_nil hnil, fun _ _ _ hcons => exec_cpop_of_cons hcons⟩

/-! ### The program (42_control.md rule R136) -/

/-- The selector of a waveform makes it the program. -/
theorem exec_prog_code (w : Waveform) (s : State) :
    exec (.prog w.code) s = .next ((s.withProgram w).withLabel (.prog w)) := by
  rw [exec, execProg, w.ofCode_code]

/-- Settles O21: the words are those of the four selectors; the three that name a waveform are its codes. -/
theorem progWritesTheProgram : Obligations.ProgWritesTheProgram :=
  ⟨by decide, exec_prog_code .square, exec_prog_code .saw, exec_prog_code .triangle, by decide⟩

/-! ### The slot of a `NOTEON` (42_control.md rule R134) -/

theorem State.alloc_of_sounding {s : State} {n : Pitch} {i : Slot} (h : s.bank.sounding n = some i) :
    s.alloc n = ⟨i, .retrigger, s.rr⟩ := by
  rw [State.alloc, h]

theorem State.alloc_of_free {s : State} {n : Pitch} {i : Slot} (hs : s.bank.sounding n = none)
    (hf : s.bank.free = some i) : s.alloc n = ⟨i, .free, s.rr⟩ := by
  rw [State.alloc, hs, hf]

theorem State.alloc_of_all_enabled {s : State} {n : Pitch} (hs : s.bank.sounding n = none)
    (hf : s.bank.free = none) : s.alloc n = ⟨s.rr, .steal, s.rr + 1⟩ := by
  rw [State.alloc, hs, hf]

/-! ### `NOTEON` and `NOTEOFF` by the slot they find (42_control.md rules R133, R135) -/

/-- The voice that a `NOTEON` of `n` writes. -/
def State.triggered (s : State) (n : Pitch) : Voice := ⟨true, s.program, 0#16, s.params.period n, n⟩

theorem exec_noteon_of_invalid {s : State} {n : Pitch} (v : Velocity) (h : s.params.period n = 0#16) :
    exec (.noteon n v) s = .next (s.withLabel .noteonRejected) := if_pos h

/-- A pitch with a period is triggered in the slot that `Alloc` gives. -/
theorem exec_noteon_of_alloc {s : State} {n : Pitch} {a : Allocation} (v : Velocity)
    (hp : s.params.period n ≠ 0#16) (ha : s.alloc n = a) :
    exec (.noteon n v) s = .next
      (((s.withRr a.rr).withBank (s.bank.set a.slot (s.triggered n))).withLabel (.noteon a.slot a.how)) := by
  subst ha
  exact if_neg hp

theorem exec_noteoff_of_sounding {s : State} {n : Pitch} {i : Slot} (h : s.bank.sounding n = some i) :
    exec (.noteoff n) s = .next
      ((s.withBank (s.bank.set i { s.bank.get i with enabled := false })).withLabel (.noteoff i)) := by
  rw [exec, execNoteoff, h]
  rfl

theorem exec_noteoff_of_silent {s : State} {n : Pitch} (h : s.bank.sounding n = none) :
    exec (.noteoff n) s = .next (s.withLabel .noteoffNomatch) := by
  rw [exec, execNoteoff, h]

/-- Settles O19: in each case the statement's conditions are those of the slot searches, so `Alloc` gives the slot, and
the write is `VoiceBank.set` there. -/
theorem noteonAllocatesAndWritesOneSlot : Obligations.NoteonAllocatesAndWritesOneSlot := by
  refine ⟨fun n v => ?word, fun s n v => ?_⟩
  case word => rw [← encode_noteon, decode_encode_noteon]
  have written (i j : Slot) := s.bank.get_set i j (s.triggered n)
  refine ⟨fun hp => ?rejected, fun hp => ⟨fun i hi hlow => ⟨_, written i, ?retrigger⟩,
    fun i hsilent hi hlow => ⟨_, written i, ?free⟩,
    fun hsilent hall => ⟨_, s.rr + 1, written s.rr, Fin.val_add s.rr 1, ?steal⟩⟩⟩
  case rejected => exact exec_noteon_of_invalid v hp
  case retrigger =>
    have ha := State.alloc_of_sounding (VoiceBank.sounding_eq_some.mpr ⟨hi, hlow⟩)
    exact exec_noteon_of_alloc v hp ha
  case free =>
    have ha := State.alloc_of_free (VoiceBank.sounding_eq_none.mpr hsilent) (VoiceBank.free_eq_some.mpr ⟨hi, hlow⟩)
    exact exec_noteon_of_alloc v hp ha
  case steal =>
    have ha := State.alloc_of_all_enabled (VoiceBank.sounding_eq_none.mpr hsilent) (VoiceBank.free_eq_none.mpr hall)
    exact exec_noteon_of_alloc v hp ha

/-- Settles O20: the statement's conditions are those of the slot search. -/
theorem noteoffDisablesTheSoundingSlot : Obligations.NoteoffDisablesTheSoundingSlot := by
  refine ⟨fun n => ?word, fun s n =>
    ⟨fun i hi hlow => ⟨_, fun j => s.bank.get_set i j { s.bank.get i with enabled := false }, ?found⟩,
      fun hsilent => ?silent⟩⟩
  case word => rw [← encode_noteoff, decode_encode_noteoff]
  case found => exact exec_noteoff_of_sounding (VoiceBank.sounding_eq_some.mpr ⟨hi, hlow⟩)
  case silent => exact exec_noteoff_of_silent (VoiceBank.sounding_eq_none.mpr hsilent)

end Sys2Proof.Machine

/-! The transmission tick (43_transmit.md): the DAC word (rule R151), its bytes (rule R152), and the two cases of `TX`
(rule R150). -/

namespace Sys2Proof.Machine

/-! ### The DAC word (43_transmit.md rule R151) -/

/-- Rule R151's formula, its prefix written as one number. -/
theorem dacWord_eq_or (s : Sample) : dacWord s = 0x3000#16 ||| (s.setWidth 16 &&& 0x0FFF#16) := rfl

/-- The mask keeps every bit of a sample, which has 12 (10_state.md rule R38). -/
theorem setWidth_and_sampleMask (s : Sample) : s.setWidth 16 &&& 0x0FFF#16 = s.setWidth 16 :=
  calc
    s.setWidth 16 &&& (BitVec.allOnes 12).setWidth 16 = (s &&& BitVec.allOnes 12).setWidth 16 :=
      BitVec.setWidth_and.symm
    _ = s.setWidth 16 := by rw [BitVec.and_allOnes]

/-- The DAC word as its two fields: the prefix above the sample. -/
theorem dacWord_eq_append (s : Sample) : dacWord s = 0x3#4 ++ s := by
  rw [dacWord, setWidth_and_sampleMask, BitVec.append_def, BitVec.shiftLeftZeroExtend_eq, BitVec.setWidth'_eq]
  rfl

theorem dacWord_prefix (s : Sample) : (dacWord s).extractLsb' 12 4 = 0b0011#4 := by
  rw [dacWord_eq_append]
  exact BitVec.extractLsb'_append_eq_left

theorem dacWord_sample (s : Sample) : (dacWord s).extractLsb' 0 12 = s := by
  rw [dacWord_eq_append]
  exact BitVec.extractLsb'_append_eq_right

/-- Settles O36: the formula and its two fields for every sample, and the rule's five examples by evaluation. -/
theorem dacWordIsPrefixAndSample : Obligations.DacWordIsPrefixAndSample :=
  ⟨fun s => ⟨dacWord_eq_or s, dacWord_prefix s, dacWord_sample s⟩, by decide⟩

/-! ### The bytes of a transfer (43_transmit.md rule R152) -/

theorem highByte_eq_shift (w : DacWord) : highByte w = (w >>> 8).setWidth 8 :=
  BitVec.setWidth_ushiftRight_eq_extractLsb.symm

theorem lowByte_eq_truncate (w : DacWord) : lowByte w = w.setWidth 8 :=
  (BitVec.setWidth_eq_extractLsb' (by decide)).symm

/-- One transfer, its bytes cut from the word as the rule says. -/
theorem transfer_eq_bytes (w : DacWord) :
    transfer w = [.ssAssert, .byte ((w >>> 8).setWidth 8), .byte (w.setWidth 8), .ssDeassert] := by
  rw [transfer, highByte_eq_shift, lowByte_eq_truncate]

/-! ### `TX` by what its pop finds (43_transmit.md rule R150) -/

theorem exec_tx_of_nil {s : State} (h : s.sq = []) : exec .tx s = .next (s.withLabel .txSkip) := by
  rw [exec, execTx, State.sqPop_nil_unchanged h]

theorem exec_tx_of_cons {s : State} {r : Sample} {q : List Sample} (h : s.sq = r :: q) :
    exec .tx s = .next
      (((s.withSq q).withDac (s.dac ++ transfer (dacWord r))).withLabel (.tx (dacWord r))) := by
  rw [exec, execTx, State.sqPop_cons h]
  rfl

/-- Settles O18: the word, and the two answers of the pop. -/
theorem txSendsTheHeadOrSkips : Obligations.TxSendsTheHeadOrSkips := by
  refine ⟨by decide, fun s hnil => ?skip, fun s r q hcons => ?send⟩
  case skip => exact exec_tx_of_nil hnil
  case send =>
    intro w
    have hw : dacWord r = w := dacWord_eq_or r
    rw [exec_tx_of_cons hcons, hw, transfer_eq_bytes]
    rfl

end Sys2Proof.Machine

/-! The encoder against the decoder (30_encoding.md rules R71 to R75), and the stored form of a word (20_memory.md
rule R60). -/

namespace Sys2Proof

/-! ### Decoding an encoding (30_encoding.md rules R72, R74) -/

/-- Field `A` as `PROG` reads it: the selector below six bits that must be zero. -/
theorem fieldA_eq_append_iff {w : OpWord} {high : BitVec 6} {c : BitVec 2} :
    fieldA w = high ++ c ↔ w.extractLsb' 10 6 = high ∧ wselField w = c := by
  rw [← append_wselField]
  constructor
  · intro h
    have hhigh := congrArg (BitVec.extractLsb' 2 6) h
    have hc := congrArg (BitVec.extractLsb' 0 2) h
    rw [BitVec.extractLsb'_append_eq_left, BitVec.extractLsb'_append_eq_left] at hhigh
    rw [BitVec.extractLsb'_append_eq_right, BitVec.extractLsb'_append_eq_right] at hc
    exact ⟨hhigh, hc⟩
  · rintro ⟨rfl, rfl⟩
    rfl

theorem decode_encode_prog {c : BitVec 2} (h : c ≠ 3#2) : decode (encode (.prog c)) = .op (.prog c) := by
  obtain ⟨hhigh, hsel⟩ := fieldA_eq_append_iff.mp (fieldA_assembleWord 0x5#4 (0#6 ++ c) 0#8)
  have hdecode : decode (encode (.prog c)) = operandsOf (encode (.prog c)) .prog :=
    decode_assembleWord (o := .prog) ⟨hhigh, fieldB_assembleWord _ _ _⟩
  exact hdecode.trans (operandsOf_prog_iff.mpr ⟨ne_of_eq_of_ne hsel h, hsel.symm⟩)

/-- Settles O3: the formats with operands by their fields, the four words without operands by evaluation. -/
theorem decodeOfEncodeIsTheOperation : Obligations.DecodeOfEncodeIsTheOperation := by
  intro i hi
  cases i with
  | nop | tick | tx | cpop => decide
  | noteon n v => exact decode_encode_noteon n v
  | noteoff n => exact decode_encode_noteoff n
  | prog c => exact decode_encode_prog (bne_iff_ne.mp hi)
  | rxbyte b => exact decode_encode_rxbyte b

/-! ### Encoding what was decoded -/

/-- A word with a row's `op` and a zero `rsv` is assembled from its operand fields. -/
theorem eq_assembleWord_of_fields {w : OpWord} {o : Opcode} {a b : BitVec 8} (hop : opField w = o.number)
    (hrsv : rsvField w = 0#12) (ha : fieldA w = a) (hb : fieldB w = b) : assembleWord o.number a b = w := by
  rw [← hop, ← ha, ← hb]
  exact assembleWord_fields w hrsv

/-- Settles O4: the operand fields of a decoded word are its operation's operands, and its other fields are those of
the row. -/
theorem decodedWordIsItsEncoding : Obligations.DecodedWordIsItsEncoding := by
  intro w i h
  obtain ⟨hop, hrsv, hzero, -⟩ := decode_eq_op_fields h
  obtain ⟨-, hops⟩ := (decode_eq_op_iff w i).mp h
  have word {a b : BitVec 8} := eq_assembleWord_of_fields (a := a) (b := b) hop hrsv
  cases i with
  | nop | tick | tx | cpop => exact ⟨word hzero.1 hzero.2, rfl⟩
  | noteon n v =>
    obtain ⟨hn, hv⟩ := operandsOf_noteon_iff.mp hops
    exact ⟨word hn.symm hv.symm, rfl⟩
  | noteoff n => exact ⟨word (operandsOf_noteoff_iff.mp hops).symm hzero, rfl⟩
  | prog c =>
    obtain ⟨hne, hc⟩ := operandsOf_prog_iff.mp hops
    have hA : fieldA w = 0#6 ++ c := fieldA_eq_append_iff.mpr ⟨hzero.1, hc.symm⟩
    exact ⟨word hA hzero.2, bne_iff_ne.mpr (hc ▸ hne)⟩
  | rxbyte b => exact ⟨word hzero (operandsOf_rxbyte_iff.mp hops).symm, rfl⟩

/-- Settles O5: the nine words by evaluation. -/
theorem listedWordsDecode : Obligations.ListedWordsDecode := by
  unfold Obligations.ListedWordsDecode
  decide

/-! ### A stored word (20_memory.md rule R60) -/

/-- The byte at bit `k` of a word, as a number. -/
theorem extract_byte_toNat (w : OpWord) (k : Nat) : (w.extractLsb' k 8).toNat = w.toNat / 2 ^ k % 256 := by
  rw [BitVec.extractLsb'_toNat, Nat.shiftRight_eq_div_pow]

theorem bytesOfWord_toNat (w : OpWord) :
    (bytesOfWord w).map BitVec.toNat =
      [w.toNat / 2 ^ 24, w.toNat / 2 ^ 16 % 256, w.toNat / 2 ^ 8 % 256, w.toNat % 256] := by
  have htop : w.toNat / 2 ^ 24 % 256 = w.toNat / 2 ^ 24 :=
    Nat.mod_eq_of_lt (Nat.div_lt_of_lt_mul w.isLt)
  simp only [bytesOfWord, List.map_cons, List.map_nil, extract_byte_toNat, htop, Nat.pow_zero, Nat.div_one]

/-- The four bytes cover the word. -/
theorem append_bytes (w : OpWord) :
    w.extractLsb' 24 8 ++ w.extractLsb' 16 8 ++ w.extractLsb' 8 8 ++ w.extractLsb' 0 8 = w := by
  have htop : w.extractLsb' 24 8 ++ w.extractLsb' 16 8 = w.extractLsb' 16 16 :=
    BitVec.extractLsb'_append_extractLsb'_eq_extractLsb' rfl
  have hmid : w.extractLsb' 16 16 ++ w.extractLsb' 8 8 = w.extractLsb' 8 24 :=
    BitVec.extractLsb'_append_extractLsb'_eq_extractLsb' rfl
  rw [htop, hmid]
  exact BitVec.extractLsb'_append_extractLsb'

/-- Settles O6. -/
theorem storedWordReadsBackBigEndian : Obligations.StoredWordReadsBackBigEndian := by
  refine fun w rest => ⟨bytesOfWord_toNat w, ?_⟩
  rw [bytesOfWord, List.cons_append, List.cons_append, List.cons_append, List.cons_append, List.nil_append,
    wordOfBytes, append_bytes]

end Sys2Proof

/-! What every operation leaves unchanged, said once for all of them (10_state.md rule R28, 60_exceptions.md
rule R173), and what they do to the bank. -/

namespace Sys2Proof.Machine

/-! ### The push of a `TICK`, field by field (41_tick_mix_enqueue.md rule R113) -/

@[simp] theorem State.enqueueHeld_params (s : State) (lab : Sample → PushResult → Label) :
    (s.enqueueHeld lab).params = s.params := by rw [State.enqueueHeld_eq]

@[simp] theorem State.enqueueHeld_bank (s : State) (lab : Sample → PushResult → Label) :
    (s.enqueueHeld lab).bank = s.bank := by rw [State.enqueueHeld_eq]

@[simp] theorem State.enqueueHeld_held (s : State) (lab : Sample → PushResult → Label) :
    (s.enqueueHeld lab).held = s.held := by rw [State.enqueueHeld_eq]

/-! ### A computing `TICK` by what its push finds -/

/-- A computing tick that finds room. -/
theorem execTick_of_mix_room {s : State} {acc : Nat} {bank : VoiceBank} (hstall : s.stall = false)
    (hm : mix s.bank = .ok (acc, bank)) (hroom : s.sq.length < s.params.sqCap) :
    execTick s = .next
      { s with bank := bank, held := sat12 acc, sq := s.sq ++ [sat12 acc], stall := false
               label := some (.compute (sat12 acc) .ok) } := by
  have hroom' : ((s.withBank bank).withHeld (sat12 acc)).sq.length < s.params.sqCap := hroom
  rw [execTick_of_mix hstall hm, State.enqueueHeld_room _ hroom']
  rfl

/-- A computing tick that finds the queue full. -/
theorem execTick_of_mix_full {s : State} {acc : Nat} {bank : VoiceBank} (hstall : s.stall = false)
    (hm : mix s.bank = .ok (acc, bank)) (hfull : s.params.sqCap ≤ s.sq.length) :
    execTick s = .next
      { s with bank := bank, held := sat12 acc, stall := true, label := some (.compute (sat12 acc) .full) } := by
  have hfull' : ¬((s.withBank bank).withHeld (sat12 acc)).sq.length < s.params.sqCap := Nat.not_lt.mpr hfull
  rw [execTick_of_mix hstall hm, State.enqueueHeld_full _ hfull']
  rfl

/-! ### The frame of an operation -/

/-- The state `s` with the fields that the operation may write as they are in `t`. -/
def State.writtenBy (s : State) (i : Instr) (t : State) : State :=
  match i with
  | .nop => { s with label := t.label }
  | .tick => { s with bank := t.bank, stall := t.stall, held := t.held, sq := t.sq, label := t.label }
  | .tx => { s with sq := t.sq, dac := t.dac, label := t.label }
  | .noteon _ _ => { s with bank := t.bank, rr := t.rr, label := t.label }
  | .noteoff _ => { s with bank := t.bank, label := t.label }
  | .prog _ => { s with program := t.program, label := t.label }
  | .rxbyte _ => { s with cq := t.cq, label := t.label }
  | .cpop => { s with cq := t.cq, ctl := t.ctl, label := t.label }

/-- An operation writes no field but those of `State.writtenBy`. -/
theorem exec_frame {s t : State} {i : Instr} (h : exec i s = .next t) : t = s.writtenBy i t := by
  cases i with
  | nop => rw [execNop_cases h]; rfl
  | tick =>
    obtain ⟨-, rfl⟩ | ⟨-, acc, bank, -, rfl⟩ := execTick_cases h
    · rw [State.enqueueHeld_eq]; rfl
    · rw [State.enqueueHeld_eq]; rfl
  | tx => obtain ⟨-, rfl⟩ | ⟨r, q, -, rfl⟩ := execTx_cases h <;> rfl
  | noteon n v => obtain ⟨-, rfl⟩ | ⟨-, rfl⟩ := execNoteon_cases (v := v) h <;> rfl
  | noteoff n => obtain ⟨-, rfl⟩ | ⟨k, -, rfl⟩ := execNoteoff_cases h <;> rfl
  | prog c => obtain ⟨w, -, rfl⟩ | ⟨-, rfl⟩ := execProg_cases h <;> rfl
  | rxbyte b => obtain ⟨-, rfl⟩ | ⟨-, rfl⟩ := execRxbyte_cases h <;> rfl
  | cpop => obtain ⟨-, rfl⟩ | ⟨b, q, -, rfl⟩ := execCpop_cases h <;> rfl

/-! ### Each field by its writers -/

section
variable {s t : State} {i : Instr}

theorem exec_params (h : exec i s = .next t) : t.params = s.params := by
  have hf := congrArg State.params (exec_frame h)
  cases i <;> exact hf

theorem exec_program (h : exec i s = .next t) : t.program = s.program ∨ ∃ c, i = .prog c := by
  have hf := congrArg State.program (exec_frame h)
  cases i with
  | prog c => exact .inr ⟨c, rfl⟩
  | nop | tick | tx | noteon | noteoff | rxbyte | cpop => exact .inl hf

theorem exec_rr (h : exec i s = .next t) : t.rr = s.rr ∨ ∃ n v, i = .noteon n v := by
  have hf := congrArg State.rr (exec_frame h)
  cases i with
  | noteon n v => exact .inr ⟨n, v, rfl⟩
  | nop | tick | tx | noteoff | prog | rxbyte | cpop => exact .inl hf

theorem exec_held (h : exec i s = .next t) : t.held = s.held ∨ i = .tick := by
  have hf := congrArg State.held (exec_frame h)
  cases i with
  | tick => exact .inr rfl
  | nop | tx | noteon | noteoff | prog | rxbyte | cpop => exact .inl hf

theorem exec_sq (h : exec i s = .next t) : t.sq = s.sq ∨ i = .tick ∨ i = .tx := by
  have hf := congrArg State.sq (exec_frame h)
  cases i with
  | tick => exact .inr (.inl rfl)
  | tx => exact .inr (.inr rfl)
  | nop | noteon | noteoff | prog | rxbyte | cpop => exact .inl hf

theorem exec_cq (h : exec i s = .next t) : t.cq = s.cq ∨ (∃ b, i = .rxbyte b) ∨ i = .cpop := by
  have hf := congrArg State.cq (exec_frame h)
  cases i with
  | rxbyte b => exact .inr (.inl ⟨b, rfl⟩)
  | cpop => exact .inr (.inr rfl)
  | nop | tick | tx | noteon | noteoff | prog => exact .inl hf

theorem exec_dac (h : exec i s = .next t) : t.dac = s.dac ∨ i = .tx := by
  have hf := congrArg State.dac (exec_frame h)
  cases i with
  | tx => exact .inr rfl
  | nop | tick | noteon | noteoff | prog | rxbyte | cpop => exact .inl hf

theorem exec_ctl (h : exec i s = .next t) : t.ctl = s.ctl ∨ i = .cpop := by
  have hf := congrArg State.ctl (exec_frame h)
  cases i with
  | cpop => exact .inr rfl
  | nop | tick | tx | noteon | noteoff | prog | rxbyte => exact .inl hf

/-- All that an operation can do to the bank (10_state.md rule R28). -/
theorem exec_bank_cases (h : exec i s = .next t) :
    t.bank = s.bank ∨
    (i = .tick ∧ ∃ acc, mix s.bank = .ok (acc, t.bank)) ∨
    (∃ n v, i = .noteon n v ∧ s.params.period n ≠ 0#16 ∧
      t.bank = s.bank.set (s.alloc n).slot (s.triggered n)) ∨
    (∃ n k, i = .noteoff n ∧ s.bank.sounding n = some k ∧
      t.bank = s.bank.set k { s.bank.get k with enabled := false }) := by
  have hf := congrArg State.bank (exec_frame h)
  cases i with
  | tick =>
    obtain ⟨-, rfl⟩ | ⟨-, acc, bank, hm, rfl⟩ := execTick_cases h
    · exact .inl (s.enqueueHeld_bank _)
    · exact .inr (.inl ⟨rfl, acc, by simpa using hm⟩)
  | noteon n v =>
    obtain ⟨-, rfl⟩ | ⟨hp, rfl⟩ := execNoteon_cases (v := v) h
    · exact .inl rfl
    · exact .inr (.inr (.inl ⟨n, v, rfl, hp, rfl⟩))
  | noteoff n =>
    obtain ⟨-, rfl⟩ | ⟨k, hk, rfl⟩ := execNoteoff_cases h
    · exact .inl rfl
    · exact .inr (.inr (.inr ⟨n, k, rfl, hk, rfl⟩))
  | nop | tx | prog | rxbyte | cpop => exact .inl hf

end

end Sys2Proof.Machine

/-! Well-formedness (10_state.md rule R40): every operation answers on a well-formed state and keeps it well-formed. -/

namespace Sys2Proof.Machine

/-! ### Writing one slot keeps the clauses on the bank -/

theorem VoiceBank.VoicesWellFormed.set {b : VoiceBank} (hb : b.VoicesWellFormed) (k : Slot) {v : Voice}
    (hv : v.WellFormed) : (b.set k v).VoicesWellFormed := by
  intro j
  rw [VoiceBank.get_set]
  split
  · exact hv
  · exact hb j

/-- A bank with no two slots sounding one pitch stays so when the voice written is disabled, or no other slot sounds
its pitch. -/
theorem VoiceBank.PitchUnique.set {b : VoiceBank} (hb : b.PitchUnique) {k : Slot} {v : Voice}
    (hv : v.enabled = true → ∀ j : Slot, j ≠ k → ¬((b.get j).enabled = true ∧ (b.get j).note = v.note)) :
    (b.set k v).PitchUnique := by
  rintro i j hij ⟨hi, hj, hn⟩
  simp only [VoiceBank.get_set] at hi hj hn
  by_cases hik : i = k
  · have hjk : j ≠ k := fun hjk => hij (hik.trans hjk.symm)
    rw [if_pos hik] at hi hn
    rw [if_neg hjk] at hj hn
    exact hv hi j hjk ⟨hj, hn.symm⟩
  · rw [if_neg hik] at hi hn
    by_cases hjk : j = k
    · rw [if_pos hjk] at hj hn
      exact hv hj i hik ⟨hi, hn⟩
    · rw [if_neg hjk] at hj hn
      exact hb i j hij ⟨hi, hj, hn⟩

/-! ### The mixer keeps the clauses on the bank -/

theorem mix_keeps_voicesWellFormed {b c : VoiceBank} {acc : Nat} (h : mix b = .ok (acc, c))
    (hb : b.VoicesWellFormed) : c.VoicesWellFormed := by
  obtain ⟨o, hstep, -⟩ := mix_by_slot h
  intro k
  obtain ⟨-, -, -, -, hkeep⟩ := voiceStep_frame (hstep k)
  exact hkeep (hb k)

theorem mix_keeps_pitchUnique {b c : VoiceBank} {acc : Nat} (h : mix b = .ok (acc, c))
    (hb : b.PitchUnique) : c.PitchUnique := by
  obtain ⟨o, hstep, -⟩ := mix_by_slot h
  intro i j hij
  obtain ⟨hei, -, -, hni, -⟩ := voiceStep_frame (hstep i)
  obtain ⟨hej, -, -, hnj, -⟩ := voiceStep_frame (hstep j)
  rw [hei, hej, hni, hnj]
  exact hb i j hij

/-! ### The clauses of rule R40, one by one -/

theorem State.triggered_wellFormed {s : State} {n : Pitch} (h : s.params.period n ≠ 0#16) :
    (s.triggered n).WellFormed := by
  have hpos : 0 < (s.params.period n).toNat :=
    Nat.pos_of_ne_zero fun h0 => h (BitVec.eq_of_toNat_eq h0)
  exact fun _ => ⟨hpos, hpos⟩

section
variable {s t : State} {i : Instr}

theorem exec_keeps_voicesWellFormed (h : exec i s = .next t) (hs : s.bank.VoicesWellFormed) :
    t.bank.VoicesWellFormed := by
  obtain hb | ⟨-, acc, hm⟩ | ⟨n, v, -, hp, hb⟩ | ⟨n, k, -, -, hb⟩ := exec_bank_cases h
  · exact hb ▸ hs
  · exact mix_keeps_voicesWellFormed hm hs
  · exact hb ▸ hs.set _ (State.triggered_wellFormed hp)
  · exact hb ▸ hs.set k (fun he => absurd he Bool.false_ne_true)

/-- A `NOTEON` takes a slot beside which no other sounds its pitch (42_control.md rule R134). -/
theorem exec_keeps_pitchUnique (h : exec i s = .next t) (hs : s.bank.PitchUnique) : t.bank.PitchUnique := by
  obtain hb | ⟨-, acc, hm⟩ | ⟨n, v, -, hp, hb⟩ | ⟨n, k, -, -, hb⟩ := exec_bank_cases h
  · exact hb ▸ hs
  · exact mix_keeps_pitchUnique hm hs
  · exact hb ▸ hs.set fun _ j hj => State.alloc_only_sounding hs n hj
  · exact hb ▸ hs.set fun he => absurd he Bool.false_ne_true

theorem exec_keeps_sq_bounded (h : exec i s = .next t) (hs : s.QueuesBounded) : t.sq.length ≤ s.params.sqCap := by
  obtain hq | rfl | rfl := exec_sq h
  · exact hq ▸ hs.1
  · obtain ⟨-, rfl⟩ | ⟨-, acc, bank, -, rfl⟩ := execTick_cases h
    · simpa using (State.enqueueHeld_bounded .retry hs).1
    · have hs' : ((s.withBank bank).withHeld (sat12 acc)).QueuesBounded := hs
      simpa using (State.enqueueHeld_bounded .compute hs').1
  · obtain ⟨-, rfl⟩ | ⟨r, q, hq, rfl⟩ := execTx_cases h
    · exact hs.1
    · have hlen : (r :: q).length ≤ s.params.sqCap := hq ▸ hs.1
      exact Nat.le_of_succ_le hlen

theorem exec_keeps_cq_bounded (h : exec i s = .next t) (hs : s.QueuesBounded) : t.cq.length ≤ s.params.cqCap := by
  obtain hq | ⟨b, rfl⟩ | rfl := exec_cq h
  · exact hq ▸ hs.2
  · obtain ⟨hroom, rfl⟩ | ⟨-, rfl⟩ := execRxbyte_cases h
    · simpa using hroom
    · exact hs.2
  · obtain ⟨-, rfl⟩ | ⟨b, q, hq, rfl⟩ := execCpop_cases h
    · exact hs.2
    · have hlen : (b :: q).length ≤ s.params.cqCap := hq ▸ hs.2
      exact Nat.le_of_succ_le hlen

theorem exec_keeps_wellFormed (h : exec i s = .next t) (hs : s.WellFormed) : t.WellFormed := by
  obtain ⟨hparams, hvoices, hpitch, hqueues⟩ := hs
  have hp := exec_params h
  refine ⟨hp ▸ hparams, exec_keeps_voicesWellFormed h hvoices, exec_keeps_pitchUnique h hpitch, ?_, ?_⟩
  · rw [hp]; exact exec_keeps_sq_bounded h hqueues
  · rw [hp]; exact exec_keeps_cq_bounded h hqueues

/-! ### Answers -/

theorem exec_prog_of_some {c : BitVec 2} {w : Waveform} (h : Waveform.ofCode c = some w) :
    exec (.prog c) s = .next ((s.withProgram w).withLabel (.prog w)) := by
  rw [exec, execProg, h]

theorem exec_prog_of_none {c : BitVec 2} (h : Waveform.ofCode c = none) :
    exec (.prog c) s = .next (s.withLabel .reserved) := by
  rw [exec, execProg, h, reservedNoOp_eq]

/-- Every operation but `TICK` answers in every state. -/
theorem exec_answers_of_ne_tick (hi : i ≠ .tick) (s : State) : ∃ t, exec i s = .next t := by
  cases i with
  | nop => exact ⟨_, exec_nop s⟩
  | tick => exact absurd rfl hi
  | tx =>
    cases hq : s.sq with
    | nil => exact ⟨_, exec_tx_of_nil hq⟩
    | cons r q => exact ⟨_, exec_tx_of_cons hq⟩
  | noteon n v =>
    by_cases hp : s.params.period n = 0#16
    · exact ⟨_, exec_noteon_of_invalid v hp⟩
    · exact ⟨_, exec_noteon_of_alloc v hp rfl⟩
  | noteoff n =>
    cases hk : s.bank.sounding n with
    | none => exact ⟨_, exec_noteoff_of_silent hk⟩
    | some k => exact ⟨_, exec_noteoff_of_sounding hk⟩
  | prog c =>
    cases hw : Waveform.ofCode c with
    | none => exact ⟨_, exec_prog_of_none hw⟩
    | some w => exact ⟨_, exec_prog_of_some hw⟩
  | rxbyte b =>
    obtain hroom | hfull := Nat.lt_or_ge s.cq.length s.params.cqCap
    · exact ⟨_, exec_rxbyte_of_room b hroom⟩
    · exact ⟨_, exec_rxbyte_of_full b hfull⟩
  | cpop =>
    cases hq : s.cq with
    | nil => exact ⟨_, exec_cpop_of_nil hq⟩
    | cons b q => exact ⟨_, exec_cpop_of_cons hq⟩

/-- A `TICK` answers where every voice meets the voice invariant. -/
theorem exec_tick_answers (hs : s.bank.VoicesWellFormed) : ∃ t, exec .tick s = .next t := by
  cases hstall : s.stall with
  | true => exact ⟨_, execTick_of_stall hstall⟩
  | false =>
    obtain ⟨acc, bank, hm⟩ := mix_answers hs
    exact ⟨_, execTick_of_mix hstall hm⟩

theorem exec_answers (i : Instr) (hs : s.WellFormed) : ∃ t, exec i s = .next t := by
  by_cases hi : i = .tick
  · obtain ⟨-, hvoices, -⟩ := hs
    exact hi ▸ exec_tick_answers hvoices
  · exact exec_answers_of_ne_tick hi s

end

/-- Settles O51: an answer, and each clause of rule R40 kept by it. -/
theorem everyOperationKeepsWellFormedness : Obligations.EveryOperationKeepsWellFormedness := by
  intro s i hs
  obtain ⟨t, ht⟩ := exec_answers i hs
  exact ⟨t, ht, exec_keeps_wellFormed ht hs⟩

end Sys2Proof.Machine

/-! The port (30_encoding.md rules R70, R74), the reset input (70_reset_and_hazards.md rule R180) and what no step
changes (10_state.md rule R36). -/

namespace Sys2Proof.Machine

/-! ### A word at the port -/

section
variable {s : State} {w : OpWord}

theorem acceptWord_of_wellFormed (hs : s.WellFormed) (w : OpWord) :
    acceptWord w s = execDecoded (decode w) s := if_pos hs

theorem acceptWord_of_ill_formed (hs : ¬ s.WellFormed) (w : OpWord) :
    acceptWord w s = .refused .illFormedState := if_neg hs

theorem acceptWord_of_op {i : Instr} (hs : s.WellFormed) (hw : decode w = .op i) : acceptWord w s = exec i s := by
  rw [acceptWord_of_wellFormed hs, hw, execDecoded]

theorem acceptWord_of_reserved {why : ReservedKind} (hs : s.WellFormed) (hw : decode w = .reserved why) :
    acceptWord w s = .next (s.withLabel .reserved) := by
  rw [acceptWord_of_wellFormed hs, hw, execDecoded_reserved]

/-- A word that was accepted ran its operation, or was reserved and wrote the label alone. -/
theorem acceptWord_cases {t : State} (h : acceptWord w s = .next t) :
    s.WellFormed ∧ ((∃ i, decode w = .op i ∧ exec i s = .next t) ∨
      (∃ why, decode w = .reserved why) ∧ t = s.withLabel .reserved) := by
  by_cases hs : s.WellFormed
  · refine ⟨hs, ?_⟩
    cases hw : decode w with
    | op i => exact .inl ⟨i, rfl, (acceptWord_of_op hs hw).symm.trans h⟩
    | reserved why =>
      have ht := (acceptWord_of_reserved hs hw).symm.trans h
      cases ht
      exact .inr ⟨⟨why, rfl⟩, rfl⟩
  · rw [acceptWord_of_ill_formed hs] at h
    cases h

theorem acceptWord_params {t : State} (h : acceptWord w s = .next t) : t.params = s.params := by
  obtain ⟨-, ⟨i, -, hi⟩ | ⟨-, rfl⟩⟩ := acceptWord_cases h
  · exact exec_params hi
  · rfl

theorem acceptWord_keeps_wellFormed {t : State} (h : acceptWord w s = .next t) : t.WellFormed := by
  obtain ⟨hs, ⟨i, -, hi⟩ | ⟨-, rfl⟩⟩ := acceptWord_cases h
  · exact exec_keeps_wellFormed hi hs
  · exact hs

theorem acceptWord_answers (hs : s.WellFormed) (w : OpWord) : ∃ t, acceptWord w s = .next t := by
  cases hw : decode w with
  | op i => exact (acceptWord_of_op hs hw).symm ▸ exec_answers i hs
  | reserved why => exact ⟨_, acceptWord_of_reserved hs hw⟩

end

/-! ### The step by the next input -/

theorem step_of_nil {s : State} (h : s.inputs = []) : step s = .next s := by
  rw [step, stepPort, h]

theorem step_of_op {s : State} {w : OpWord} {rest : List Input} (h : s.inputs = .op w :: rest) :
    step s = acceptWord w (s.withInputs rest) := by
  rw [step, stepPort, h]
  rfl

theorem step_of_reset {s : State} {rest : List Input} (h : s.inputs = .reset :: rest) :
    step s = .next ((State.resetWith s.params).withInputs rest) := by
  rw [step, stepPort, h]
  rfl

/-- Settles O8. -/
theorem stepRunsTheDecodedOperation : Obligations.StepRunsTheDecodedOperation := by
  intro s w rest i hs hin hw
  rw [step_word hs hin, hw]
  rfl

theorem decodeTableWord_eq_some {nbits w : Nat} {i : Instr} (h : decodeTableWord nbits w = some i) :
    decode (tableWord nbits w) = .op i := by
  unfold decodeTableWord at h
  split at h
  · next j hj => cases h; exact hj
  · cases h

/-- Settles O9: the presented word is the head of the inputs, and taking it gives the state back. -/
theorem presentedWordRunsNext : Obligations.PresentedWordRunsNext := by
  intro s nbits w i hs hw
  have hs' : (s.withFetchWord nbits w).WellFormed := hs
  exact stepRunsTheDecodedOperation _ _ _ i hs' rfl (decodeTableWord_eq_some hw)

/-- Settles O11. -/
theorem illFormedStateIsRefused : Obligations.IllFormedStateIsRefused := by
  intro s w rest hs hin
  have hs' : ¬(s.withInputs rest).WellFormed := hs
  rw [step_of_op hin, acceptWord_of_ill_formed hs']

/-- Settles O12. -/
theorem nothingPresentedNothingDone : Obligations.NothingPresentedNothingDone := fun _ h => step_of_nil h

/-- Settles O13: the step answers `State.resetWith` of the same parameters. -/
theorem resetInputResetsTheBlock : Obligations.ResetInputResetsTheBlock := fun _ _ hin =>
  ⟨_, step_of_reset hin, VoiceBank.reset_get, rfl, rfl, rfl, rfl, rfl, rfl, rfl, rfl, rfl, rfl⟩

/-- Settles O22: `PROG 3` names no waveform, and its word is reserved. -/
theorem progThreeIsTheReservedWord : Obligations.ProgThreeIsTheReservedWord := by
  intro s
  have hprog : exec (.prog 3#2) s = .next (s.withLabel .reserved) :=
    exec_prog_of_none (Waveform.ofCode_eq_none.mpr rfl)
  have hword : decode 0x50000300#32 = .reserved .selectorThree := by decide
  refine ⟨?_, hprog⟩
  rw [hprog, hword, execDecoded_reserved]

/-- Settles O47: by the next input; an operation leaves them, and reset takes them over. -/
theorem parametersNeverChange : Obligations.ParametersNeverChange := by
  intro s t h
  match hin : s.inputs with
  | [] =>
    cases (step_of_nil hin).symm.trans h
    rfl
  | .op w :: rest =>
    have hp := acceptWord_params ((step_of_op hin).symm.trans h)
    exact hp
  | .reset :: rest =>
    cases (step_of_reset hin).symm.trans h
    rfl

end Sys2Proof.Machine

/-! Safety (60_exceptions.md rule R177): the DAC stream stays well bracketed (43_transmit.md rule R153), so soundness
holds at reset, is kept by every step, and holds of every reachable state. -/

namespace Sys2Proof.Machine

/-! ### The DAC stream and the samples recovered from it (43_transmit.md rule R153) -/

theorem dacBracketed_iff {es : List DacEvent} :
    dacBracketed es = true ↔ ∃ ps, transfersOf es = some ps ∧ ∀ p ∈ ps, p.1.extractLsb' 4 4 = 0x3#4 := by
  unfold dacBracketed
  cases transfersOf es with
  | none => simp
  | some ps => simp

theorem dacBracketed_append_transfer {es : List DacEvent} (h : dacBracketed es = true) (r : Sample) :
    dacBracketed (es ++ transfer (dacWord r)) = true := by
  obtain ⟨ps, hps, hall⟩ := dacBracketed_iff.mp h
  refine dacBracketed_iff.mpr ⟨_, transfersOf_append_transfer _ _ hps, ?_⟩
  rw [List.forall_mem_append, List.forall_mem_singleton]
  exact ⟨hall, highByte_dacWord_nibble r⟩

theorem sentSamples_append_transfer {es : List DacEvent} (h : dacBracketed es = true) (r : Sample) :
    sentSamples (es ++ transfer (dacWord r)) = sentSamples es ++ [r] := by
  obtain ⟨ps, hps, -⟩ := dacBracketed_iff.mp h
  rw [sentSamples, transfer, transfersOf_append_transfer _ _ hps, sentSamples, hps]
  simp only [Option.getD_some, List.map_append, List.map_cons, List.map_nil, sampleOfTransfer_dacWord]

/-! ### Soundness -/

theorem exec_keeps_dacBracketed {s t : State} {i : Instr} (h : exec i s = .next t)
    (hs : dacBracketed s.dac = true) : dacBracketed t.dac = true := by
  obtain hdac | rfl := exec_dac h
  · exact hdac ▸ hs
  · obtain ⟨-, rfl⟩ | ⟨r, q, -, rfl⟩ := execTx_cases h
    · exact hs
    · exact dacBracketed_append_transfer hs r

theorem acceptWord_keeps_sound {s t : State} {w : OpWord} (h : acceptWord w s = .next t) (hs : s.Sound) :
    t.Sound := by
  refine ⟨acceptWord_keeps_wellFormed h, ?_⟩
  obtain ⟨-, ⟨i, -, hi⟩ | ⟨-, rfl⟩⟩ := acceptWord_cases h
  · exact exec_keeps_dacBracketed hi hs.2
  · exact hs.2

theorem VoiceBank.reset_voicesWellFormed : VoiceBank.reset.VoicesWellFormed := by
  intro i he
  rw [VoiceBank.reset_get] at he
  exact absurd he Bool.false_ne_true

theorem VoiceBank.reset_pitchUnique : VoiceBank.reset.PitchUnique := by
  rintro i j - ⟨he, -⟩
  rw [VoiceBank.reset_get] at he
  exact absurd he Bool.false_ne_true

theorem State.resetWith_sound {p : Params} (hp : p.WellFormed) (inputs : List Input) :
    ((State.resetWith p).withInputs inputs).Sound :=
  ⟨⟨hp, VoiceBank.reset_voicesWellFormed, VoiceBank.reset_pitchUnique, Nat.zero_le _, Nat.zero_le _⟩, rfl⟩

/-- Settles O53: `State.reset` is the reset state of parameters that the spec allows. -/
theorem resetStateIsSound : Obligations.ResetStateIsSound :=
  ⟨fun _ inputs hp => State.resetWith_sound hp inputs,
    State.resetWith_sound (p := Params.default) (by decide) []⟩

/-- Settles O52: by the next input. -/
theorem everyStepKeepsSoundness : Obligations.EveryStepKeepsSoundness := by
  intro s hs
  match hin : s.inputs with
  | [] => exact ⟨s, step_of_nil hin, hs⟩
  | .op w :: rest =>
    have hs' : (s.withInputs rest).Sound := hs
    obtain ⟨t, ht⟩ := acceptWord_answers hs'.1 w
    exact ⟨t, (step_of_op hin).trans ht, acceptWord_keeps_sound ht hs'⟩
  | .reset :: rest =>
    obtain ⟨⟨hparams, -⟩, -⟩ := hs
    exact ⟨_, step_of_reset hin, State.resetWith_sound hparams rest⟩

theorem Reachable.sound {s : State} (h : Reachable s) : s.Sound := by
  induction h with
  | reset p hp inputs => exact State.resetWith_sound hp inputs
  | step s t _ hst ih =>
    obtain ⟨t', ht', hsound⟩ := everyStepKeepsSoundness s ih
    cases ht'.symm.trans hst
    exact hsound

/-- Settles O54. -/
theorem reachableStatesGoOn : Obligations.ReachableStatesGoOn := by
  intro s h
  obtain ⟨t, ht, -⟩ := everyStepKeepsSoundness s h.sound
  exact ⟨h.sound, t, ht⟩

end Sys2Proof.Machine

/-! Runs (70_reset_and_hazards.md rule R193): the accounting of samples and bytes and of the `TICK`s
(41_tick_mix_enqueue.md rules R114 to R116, 42_control.md rule R140). -/

namespace Sys2Proof.Machine

/-! ### One word of a run -/

section
variable {s t : State} {w : OpWord}

theorem runWords_cons (h : acceptWord w s = .next t) (ws : List OpWord) : runWords (w :: ws) s = runWords ws t := by
  rw [runWords, h]

theorem computedAlong_cons (h : acceptWord w s = .next t) (ws : List OpWord) :
    computedAlong (w :: ws) s = computedBy w s t ++ computedAlong ws t := by
  rw [computedAlong, h]

theorem acceptedAlong_cons (h : acceptWord w s = .next t) (ws : List OpWord) :
    acceptedAlong (w :: ws) s = acceptedBy w s ++ acceptedAlong ws t := by
  rw [acceptedAlong, h]

theorem overflowsAlong_cons (h : acceptWord w s = .next t) (ws : List OpWord) :
    overflowsAlong (w :: ws) s =
      (if decode w = .op .tick ∧ s.params.sqCap ≤ s.sq.length then 1 else 0) + overflowsAlong ws t := by
  rw [overflowsAlong, h]

theorem ticksIn_cons (w : OpWord) (ws : List OpWord) :
    ticksIn (w :: ws) = ticksIn ws + if decode w = .op .tick then 1 else 0 := by
  simp only [ticksIn, List.countP_cons, beq_iff_eq]

theorem computedBy_tick (hw : decode w = .op .tick) (hs : s.stall = false) : computedBy w s t = [t.held] :=
  if_pos ⟨hw, hs⟩

theorem computedBy_retry (hs : s.stall = true) : computedBy w s t = [] :=
  if_neg fun h => Bool.false_ne_true (h.2.symm.trans hs)

theorem computedBy_of_ne_tick (hw : decode w ≠ .op .tick) : computedBy w s t = [] := if_neg fun h => hw h.1

end

theorem runWords_answers (ws : List OpWord) : ∀ s : State, s.WellFormed → ∃ t, runWords ws s = .next t := by
  induction ws with
  | nil => exact fun s _ => ⟨s, rfl⟩
  | cons w ws ih =>
    intro s hs
    obtain ⟨t, ht⟩ := acceptWord_answers hs w
    rw [runWords_cons ht]
    exact ih t (acceptWord_keeps_wellFormed ht)

theorem runWords_cons_eq_next {w : OpWord} {ws : List OpWord} {s u : State} (h : runWords (w :: ws) s = .next u) :
    ∃ t, acceptWord w s = .next t ∧ runWords ws t = .next u := by
  cases hw : acceptWord w s with
  | next t => exact ⟨t, rfl, (runWords_cons hw ws).symm.trans h⟩
  | fault f => rw [runWords, hw] at h; cases h
  | refused r => rw [runWords, hw] at h; cases h

/-! ### Samples (41_tick_mix_enqueue.md rules R114, R115) -/

/-- Whether or not it finds room, the push of a `TICK` leaves `held` as the last sample accounted for. -/
theorem State.enqueueHeld_accountedSamples (s : State) (lab : Sample → PushResult → Label) :
    (s.enqueueHeld lab).accountedSamples = sentSamples s.dac ++ s.sq ++ [s.held] := by
  by_cases h : s.sq.length < s.params.sqCap
  · rw [State.enqueueHeld_room lab h]
    simp [State.accountedSamples, State.pendingSample]
  · rw [State.enqueueHeld_full lab h]
    simp [State.accountedSamples, State.pendingSample]

/-- `TX` moves the head of the queue to the stream. -/
theorem execTx_accountedSamples {s t : State} (h : execTx s = .next t) (hs : dacBracketed s.dac = true) :
    t.accountedSamples = s.accountedSamples := by
  obtain ⟨-, rfl⟩ | ⟨r, q, hq, rfl⟩ := execTx_cases h
  · rfl
  · have hsent := sentSamples_append_transfer hs r
    have hpending : State.pendingSample (((s.withSq q).withDac (s.dac ++ transfer (dacWord r))).withLabel
        (.tx (dacWord r))) = s.pendingSample := rfl
    simp [State.accountedSamples, hpending, hsent, hq]

/-- Outside `TICK` and `TX` nothing that is accounted for is written. -/
theorem exec_accountedSamples_of_other {s t : State} {i : Instr} (h : exec i s = .next t) (htick : i ≠ .tick)
    (htx : i ≠ .tx) : t.accountedSamples = s.accountedSamples := by
  have hdac := (exec_dac h).resolve_right htx
  have hsq := (exec_sq h).resolve_right (not_or.mpr ⟨htick, htx⟩)
  have hheld := (exec_held h).resolve_right htick
  have hstall := exec_stall_of_ne_tick htick h
  rw [State.accountedSamples, State.pendingSample, hdac, hsq, hheld, hstall]
  rfl

theorem acceptWord_accountedSamples {w : OpWord} {s t : State} (h : acceptWord w s = .next t) (hs : s.Sound) :
    t.accountedSamples = s.accountedSamples ++ computedBy w s t := by
  obtain ⟨-, ⟨i, hw, hi⟩ | ⟨⟨why, hw⟩, rfl⟩⟩ := acceptWord_cases h
  · by_cases htick : i = .tick
    · subst htick
      obtain ⟨hstall, rfl⟩ | ⟨hstall, acc, bank, -, rfl⟩ := execTick_cases hi
      · rw [computedBy_retry hstall, State.enqueueHeld_accountedSamples]
        simp [State.accountedSamples, State.pendingSample, hstall]
      · rw [computedBy_tick hw hstall, State.enqueueHeld_accountedSamples]
        simp [State.accountedSamples, State.pendingSample, hstall]
    · have hother : computedBy w s t = [] :=
        computedBy_of_ne_tick fun htick' => htick (Decoded.op.inj (hw.symm.trans htick'))
      rw [hother, List.append_nil]
      by_cases htx : i = .tx
      · subst htx
        exact execTx_accountedSamples hi hs.2
      · exact exec_accountedSamples_of_other hi htick htx
  · have hother : computedBy w s (s.withLabel .reserved) = [] := computedBy_of_ne_tick (by simp [hw])
    rw [hother, List.append_nil]
    rfl

theorem runWords_keeps_sound {ws : List OpWord} {s t : State} (h : runWords ws s = .next t) (hs : s.Sound) :
    t.Sound := by
  induction ws generalizing s with
  | nil =>
    cases h
    exact hs
  | cons w ws ih =>
    obtain ⟨u, hu, ht⟩ := runWords_cons_eq_next h
    exact ih ht (acceptWord_keeps_sound hu hs)

theorem runWords_accountedSamples {ws : List OpWord} {s t : State} (h : runWords ws s = .next t) (hs : s.Sound) :
    t.accountedSamples = s.accountedSamples ++ computedAlong ws s := by
  induction ws generalizing s with
  | nil =>
    cases h
    exact (List.append_nil _).symm
  | cons w ws ih =>
    obtain ⟨u, hu, ht⟩ := runWords_cons_eq_next h
    rw [ih ht (acceptWord_keeps_sound hu hs), acceptWord_accountedSamples hu hs, computedAlong_cons hu,
      List.append_assoc]

/-- Settles O55: by induction on the run, one word by `acceptWord_accountedSamples`. -/
theorem noSampleIsDroppedDuplicatedOrReordered : Obligations.NoSampleIsDroppedDuplicatedOrReordered := by
  intro ws s hs
  obtain ⟨t, ht⟩ := runWords_answers ws s hs.1
  exact ⟨t, ht, runWords_keeps_sound ht hs, runWords_accountedSamples ht hs⟩

/-! ### Bytes (20_memory.md rule R64, 42_control.md rule R140) -/

theorem acceptedBy_of_ne_rxbyte {w : OpWord} {s : State} (h : ∀ b, decode w ≠ .op (.rxbyte b)) :
    acceptedBy w s = [] := by
  unfold acceptedBy
  split
  · next b hb => exact absurd hb (h b)
  · rfl

theorem acceptedBy_rxbyte {w : OpWord} {b : Byte} (hw : decode w = .op (.rxbyte b)) (s : State) :
    acceptedBy w s = if s.cq.length < s.params.cqCap then [b] else [] := by
  rw [acceptedBy, hw]

theorem execRxbyte_accountedBytes {b : Byte} {s t : State} (h : execRxbyte b s = .next t) :
    t.accountedBytes = s.accountedBytes ++ if s.cq.length < s.params.cqCap then [b] else [] := by
  obtain ⟨hroom, rfl⟩ | ⟨hfull, rfl⟩ := execRxbyte_cases h
  · simp [State.accountedBytes, hroom]
  · simp [State.accountedBytes, Nat.not_lt.mpr hfull]

/-- `CPOP` moves the head of the queue to the stream. -/
theorem execCpop_accountedBytes {s t : State} (h : execCpop s = .next t) :
    t.accountedBytes = s.accountedBytes := by
  obtain ⟨-, rfl⟩ | ⟨b, q, hq, rfl⟩ := execCpop_cases h
  · rfl
  · simp [State.accountedBytes, CtlEvent.data, hq]

theorem acceptWord_accountedBytes {w : OpWord} {s t : State} (h : acceptWord w s = .next t) :
    t.accountedBytes = s.accountedBytes ++ acceptedBy w s := by
  obtain ⟨-, ⟨i, hw, hi⟩ | ⟨⟨why, hw⟩, rfl⟩⟩ := acceptWord_cases h
  · by_cases hrx : ∃ b, i = .rxbyte b
    · obtain ⟨b, rfl⟩ := hrx
      rw [acceptedBy_rxbyte hw, execRxbyte_accountedBytes hi]
    · have hother : acceptedBy w s = [] :=
        acceptedBy_of_ne_rxbyte fun b hb => hrx ⟨b, Decoded.op.inj (hw.symm.trans hb)⟩
      rw [hother, List.append_nil]
      by_cases hpop : i = .cpop
      · subst hpop
        exact execCpop_accountedBytes hi
      · have hcq := (exec_cq hi).resolve_right (not_or.mpr ⟨hrx, hpop⟩)
        have hctl := (exec_ctl hi).resolve_right hpop
        rw [State.accountedBytes, hcq, hctl, State.accountedBytes]
  · have hother : acceptedBy w s = [] := acceptedBy_of_ne_rxbyte (by simp [hw])
    rw [hother, List.append_nil]
    rfl

theorem runWords_accountedBytes {ws : List OpWord} {s t : State} (h : runWords ws s = .next t) :
    t.accountedBytes = s.accountedBytes ++ acceptedAlong ws s := by
  induction ws generalizing s with
  | nil =>
    cases h
    exact (List.append_nil _).symm
  | cons w ws ih =>
    obtain ⟨u, hu, ht⟩ := runWords_cons_eq_next h
    rw [ih ht, acceptWord_accountedBytes hu, acceptedAlong_cons hu, List.append_assoc]

/-- Settles O56: by induction on the run, one word by `acceptWord_accountedBytes`. -/
theorem acceptedBytesAreDeliveredInOrder : Obligations.AcceptedBytesAreDeliveredInOrder := by
  intro ws s hs
  obtain ⟨t, ht⟩ := runWords_answers ws s hs
  exact ⟨t, ht, runWords_accountedBytes ht⟩

/-! ### `TICK`s (41_tick_mix_enqueue.md rule R116) -/

/-- One word: a `TICK` computes or pays for the stall it begins in, and owes for the one it ends in. -/
theorem acceptWord_tick_balance {w : OpWord} {s t : State} (h : acceptWord w s = .next t) :
    (if decode w = .op .tick then 1 else 0) + t.stall.toNat =
      (computedBy w s t).length +
        (if decode w = .op .tick ∧ s.params.sqCap ≤ s.sq.length then 1 else 0) + s.stall.toNat := by
  obtain ⟨-, ⟨i, hw, hi⟩ | ⟨⟨why, hw⟩, rfl⟩⟩ := acceptWord_cases h
  · by_cases htick : i = .tick
    · subst htick
      have hpaid : (computedBy w s t).length + s.stall.toNat = 1 := by
        cases hstall : s.stall with
        | false => rw [computedBy_tick hw hstall]; rfl
        | true => rw [computedBy_retry hstall]; rfl
      have howed : t.stall.toNat = if s.params.sqCap ≤ s.sq.length then 1 else 0 := by
        rw [Bool.toNat, cond_eq_ite]
        exact if_congr (execTick_stall hi) rfl rfl
      simp only [hw, if_true, true_and]
      omega
    · have hne : decode w ≠ .op .tick := fun htick' => htick (Decoded.op.inj (hw.symm.trans htick'))
      rw [computedBy_of_ne_tick hne, exec_stall_of_ne_tick htick hi]
      simp [hne]
  · have hne : decode w ≠ .op .tick := by simp [hw]
    rw [computedBy_of_ne_tick hne]
    simp [hne]

theorem runWords_tick_balance {ws : List OpWord} {s t : State} (h : runWords ws s = .next t) :
    ticksIn ws + t.stall.toNat = (computedAlong ws s).length + overflowsAlong ws s + s.stall.toNat := by
  induction ws generalizing s with
  | nil =>
    cases h
    rfl
  | cons w ws ih =>
    obtain ⟨u, hu, ht⟩ := runWords_cons_eq_next h
    have hword := acceptWord_tick_balance hu
    have hrest := ih ht
    rw [ticksIn_cons, computedAlong_cons hu, overflowsAlong_cons hu, List.length_append]
    omega

/-- Settles O57: by induction on the run, one word by `acceptWord_tick_balance`. -/
theorem eachOverflowCostsOneTick : Obligations.EachOverflowCostsOneTick := by
  intro ws s hs
  obtain ⟨t, ht⟩ := runWords_answers ws s hs
  exact ⟨t, ht, runWords_tick_balance ht⟩

end Sys2Proof.Machine

/-! The datapath of a `TICK` as a whole (40_waveform.md rules R91, R92, R100, 41_tick_mix_enqueue.md rules R110, R112,
93_implementation_defined.md U1) and the range of the DAC word (43_transmit.md rule R151). -/

namespace Sys2Proof.Machine

/-! ### The ratio (40_waveform.md rules R91, R92) -/

/-- Settles O26: the two bounds of the floor quotient, and the laws of the ratio by its numerator. -/
theorem ratioTruncatesTheExactQuotient : Obligations.RatioTruncatesTheExactQuotient := by
  refine ⟨fun scale num den pos => ⟨Nat.div_mul_le_self _ _, ?above, ratio_zero scale pos, ratio_self scale pos,
    fun hs h => ratio_lt pos hs h⟩, rfl, rfl, rfl⟩
  case above =>
    rw [Nat.mul_comm _ den]
    exact Nat.lt_mul_div_succ (scale * num) pos

/-! ### The outputs and their sum (40_waveform.md rule R100, 41_tick_mix_enqueue.md rule R112) -/

/-- Settles O32: the voice step answers, with an output below `HIGH` and a voice that meets the invariant again. -/
theorem voiceOutputIsAtMostHigh : Obligations.VoiceOutputIsAtMostHigh := by
  intro s i hs
  obtain ⟨-, hvoices, -⟩ := hs
  obtain ⟨o, v, hv⟩ := voiceStep_answers (hvoices i)
  have hle := voiceStep_le_high hv
  obtain ⟨-, -, -, -, hkeep⟩ := voiceStep_frame hv
  exact ⟨o, v, hv, hle, Nat.lt_succ_of_le hle, hkeep (hvoices i)⟩

/-- A voice step by its one write, enabled or not (40_waveform.md rule R99). -/
theorem voiceStep_writes_phase {v v' : Voice} {o : Nat} (h : voiceStep v = .ok (o, v')) :
    v' = { v with phase := if v.enabled = true then advance v.phase v.period else v.phase } := by
  obtain ⟨he, -, rfl⟩ | ⟨he, -, rfl, -⟩ := voiceStep_cases h
  · rw [if_neg (by simp [he])]
  · rw [if_pos he]

/-- The mixer by slot: every voice steps, and the outputs are summed (41_tick_mix_enqueue.md rule R110). -/
theorem mix_eq_ok_iff_sum {b c : VoiceBank} {acc : Nat} :
    mix b = .ok (acc, c) ↔
      ∃ o : Slot → Nat, (∀ i, voiceStep (b.get i) = .ok (o i, c.get i)) ∧ acc = ∑ i, o i := by
  simp only [Fin.sum_univ_four]
  constructor
  · exact mix_by_slot
  · rintro ⟨o, ho, hacc⟩
    exact mix_eq_ok_iff.mpr ⟨o 0, o 1, o 2, o 3, ho 0, ho 1, ho 2, ho 3, hacc⟩

theorem mix_le {b c : VoiceBank} {acc : Nat} (h : mix b = .ok (acc, c)) : acc ≤ 4092 := by
  obtain ⟨o, ho, rfl⟩ := mix_eq_ok_iff_sum.mp h
  calc ∑ i, o i ≤ ∑ _i : Slot, 1023 := Finset.sum_le_sum fun i _ => voiceStep_le_high (ho i)
    _ = 4092 := rfl

theorem voiceStep_square_high {v : Voice} (he : v.enabled = true) (hw : v.waveform = .square)
    (hpos : 0 < v.period.toNat) (hlt : v.phase.toNat < v.period.toNat)
    (hhalf : v.phase.toNat ≤ v.period.toNat / 2) :
    voiceStep v = .ok (1023, v.advanced) := by
  have hout : v.output = 1023 := by
    rw [Voice.output_of_enabled he hpos, hw]
    exact (square_eq_high_iff _ _).mpr hhalf
  rw [voiceStep_eq_output_advanced fun _ => ⟨hpos, hlt⟩, hout]

/-- Settles O33: the bound on each output bounds the sum, and four Squares in their first half reach it. -/
theorem mixNeedsNoClamp : Obligations.MixNeedsNoClamp := by
  refine ⟨fun s hs => ?bound, fun b hb => ⟨b.advanced, ?reached⟩⟩
  case bound =>
    obtain ⟨-, hvoices, -⟩ := hs
    obtain ⟨acc, bank, hm⟩ := mix_answers hvoices
    have hle := mix_le hm
    refine ⟨acc, bank, hm, hle, ?_⟩
    rw [sat12_toNat]
    omega
  case reached =>
    refine mix_eq_ok_iff_sum.mpr ⟨fun _ => 1023, fun i => ?_, rfl⟩
    obtain ⟨he, hw, hpos, hlt, hhalf⟩ := hb i
    rw [VoiceBank.advanced_get]
    exact voiceStep_square_high he hw hpos hlt hhalf

/-! ### The order of the slots (41_tick_mix_enqueue.md rule R110) -/

/-- The bank with the voice `f i` in each slot `i`. -/
def VoiceBank.ofSlots (f : Slot → Voice) : VoiceBank := ⟨f 0, f 1, f 2, f 3⟩

@[simp] theorem VoiceBank.ofSlots_get (f : Slot → Voice) (i : Slot) : (VoiceBank.ofSlots f).get i = f i := by
  fin_cases i <;> rfl

/-- Settles O34: a permutation of the slots permutes the outputs, which leaves their sum. -/
theorem mixIgnoresTheOrderOfSlots : Obligations.MixIgnoresTheOrderOfSlots := by
  intro b b' c σ acc hb' hm
  obtain ⟨o, ho, hacc⟩ := mix_eq_ok_iff_sum.mp hm
  refine ⟨.ofSlots fun i => c.get (σ i), mix_eq_ok_iff_sum.mpr ⟨fun i => o (σ i), fun i => ?_, ?_⟩,
    VoiceBank.ofSlots_get _⟩
  · rw [hb', VoiceBank.ofSlots_get]
    exact ho (σ i)
  · rw [hacc, Equiv.sum_comp σ o]

/-! ### A voice with no period (93_implementation_defined.md U1) -/

theorem execTick_of_mix_error {s : State} {f : Fault} (hstall : s.stall = false) (hm : mix s.bank = .error f) :
    execTick s = .fault f := by
  rw [execTick, if_neg (by simp [hstall]), hm]

/-- The mixer answers on no bank with an enabled voice of period 0. -/
theorem mix_error_of_zero_period {b : VoiceBank} {i : Slot} (he : (b.get i).enabled = true)
    (hp : (b.get i).period = 0#16) : ∃ f, mix b = .error f := by
  cases hm : mix b with
  | error f => exact ⟨f, rfl⟩
  | ok r =>
    obtain ⟨o, ho, -⟩ := mix_eq_ok_iff_sum.mp hm
    obtain ⟨hd, -⟩ | ⟨-, hlt, -⟩ := voiceStep_cases (ho i)
    · exact absurd (hd.symm.trans he) Bool.false_ne_true
    · rw [hp] at hlt
      exact absurd hlt (Nat.not_lt_zero _)

/-- Settles O25. -/
theorem zeroPeriodOnAnEnabledVoiceFaults : Obligations.ZeroPeriodOnAnEnabledVoiceFaults := by
  intro s i hstall he hp
  obtain ⟨f, hf⟩ := mix_error_of_zero_period he hp
  exact ⟨f, execTick_of_mix_error hstall hf⟩

/-! ### The DAC word (43_transmit.md rule R151) -/

theorem dacWord_toNat (s : Sample) : (dacWord s).toNat = 0x3000 + s.toNat := by
  rw [dacWord_eq_append, BitVec.toNat_append, ← Nat.shiftLeft_add_eq_or_of_lt s.isLt]
  rfl

/-- Settles O37. -/
theorem dacWordIsInTheCommandRange : Obligations.DacWordIsInTheCommandRange := by
  intro s
  have hw := dacWord_toNat s
  have hlt := s.isLt
  exact ⟨setWidth_and_sampleMask s, hw, by omega, by omega⟩

end Sys2Proof.Machine

/-! Who touches what (10_state.md rules R28, R32, R33, 60_exceptions.md rules R161 to R173): what each operation
reads and writes. -/

namespace Sys2Proof.Machine

/-! ### Writes, by operation and by issuer -/

/-- Settles O40: the cases of `TICK`, `NOTEON` and `NOTEOFF`, and the frame of the other operations. -/
theorem voiceBankIsWrittenAsTheTableSays : Obligations.VoiceBankIsWrittenAsTheTableSays := by
  intro s t i h
  refine ⟨?retry, ?compute, ?noteon, ?noteoff, ?other⟩
  case retry =>
    rintro rfl hstall
    obtain ⟨-, rfl⟩ | ⟨hrun, -⟩ := execTick_cases h
    · exact s.enqueueHeld_bank _
    · exact absurd (hrun.symm.trans hstall) Bool.false_ne_true
  case compute =>
    rintro rfl hrun k
    obtain ⟨hstall, -⟩ | ⟨-, acc, bank, hm, rfl⟩ := execTick_cases h
    · exact absurd (hrun.symm.trans hstall) Bool.false_ne_true
    · obtain ⟨o, ho, -⟩ := mix_by_slot hm
      simp only [State.enqueueHeld_bank, State.withHeld_bank, State.withBank_bank]
      exact voiceStep_writes_phase (ho k)
  case noteon =>
    rintro n v rfl
    obtain ⟨hp, rfl⟩ | ⟨hp, rfl⟩ := execNoteon_cases (v := v) h
    · exact ⟨fun _ => rfl, fun hne => absurd hp hne⟩
    · exact ⟨fun h0 => absurd h0 hp, fun _ =>
        ⟨VoiceBank.get_set_self _ _ _, fun j hj => VoiceBank.get_set_ne _ _ _ _ hj⟩⟩
  case noteoff =>
    rintro n rfl
    obtain ⟨hnone, rfl⟩ | ⟨k, hk, rfl⟩ := execNoteoff_cases h
    · exact ⟨fun _ => rfl, fun k hk => absurd (hk.symm.trans hnone) (Option.some_ne_none k)⟩
    · refine ⟨fun hnone => absurd (hk.symm.trans hnone) (Option.some_ne_none k), fun k' hk' => ?_⟩
      obtain rfl : k = k' := Option.some.inj (hk.symm.trans hk')
      exact ⟨VoiceBank.get_set_self _ _ _, fun j hj => VoiceBank.get_set_ne _ _ _ _ hj⟩
  case other =>
    intro hon hoff htick
    obtain hb | ⟨htick', -⟩ | ⟨n, v, hon', -⟩ | ⟨n, k, hoff', -⟩ := exec_bank_cases h
    · exact hb
    · exact absurd htick' htick
    · exact absurd hon' (hon n v)
    · exact absurd hoff' (hoff n)

/-- The issuer of a `TICK` issues nothing else (20_memory.md rule R62). -/
theorem eq_tick_of_issuer {i : Instr} (h : issuer i = .synthesis) : i = .tick := by
  cases i with
  | tick => rfl
  | nop | tx | noteon | noteoff | prog | rxbyte | cpop => cases h

theorem exec_tick_writes_phases {s t : State} (h : exec .tick s = .next t) (k : Slot) :
    ∃ ph, t.bank.get k = { s.bank.get k with phase := ph } := by
  obtain ⟨hretry, hcompute, -⟩ := voiceBankIsWrittenAsTheTableSays s t .tick h
  cases hstall : s.stall with
  | true => exact ⟨(s.bank.get k).phase, by rw [hretry rfl hstall]⟩
  | false => exact ⟨_, hcompute rfl hstall k⟩

/-- Settles O46: each field by its writers, and each writer by its issuer. -/
theorem agentsTouchOnlyTheirOwn : Obligations.AgentsTouchOnlyTheirOwn := by
  intro s t i h
  refine ⟨fun hne => ?bank, fun hi => ?phases, fun hne => ?program, fun hne => ?rr, fun hne => ?sq,
    fun hne => ?stall, fun hne => ?held, fun hne => ?cq⟩
  case bank =>
    obtain ⟨rfl, -⟩ | ⟨n, v, rfl, -⟩ | ⟨n, k, rfl, -⟩ := (exec_bank_cases h).resolve_left hne
    · exact .inr rfl
    · exact .inl rfl
    · exact .inl rfl
  case phases =>
    obtain rfl := eq_tick_of_issuer hi
    exact exec_tick_writes_phases h
  case program =>
    obtain ⟨c, rfl⟩ := (exec_program h).resolve_left hne
    rfl
  case rr =>
    obtain ⟨n, v, rfl⟩ := (exec_rr h).resolve_left hne
    rfl
  case sq =>
    obtain rfl | rfl := (exec_sq h).resolve_left hne
    · exact .inl rfl
    · exact .inr rfl
  case stall =>
    obtain rfl : i = .tick := by_contra fun hi => hne (exec_stall_of_ne_tick hi h)
    rfl
  case held =>
    obtain rfl := (exec_held h).resolve_left hne
    rfl
  case cq =>
    obtain ⟨b, rfl⟩ | rfl := (exec_cq h).resolve_left hne
    · exact .inl rfl
    · exact .inr rfl

/-- Settles O45: the writer of each stream, by what its pop finds. -/
theorem onlyTxAndCpopEmit : Obligations.OnlyTxAndCpopEmit := by
  intro s t i h
  refine ⟨(exec_dac h).elim .inl ?dac, (exec_ctl h).elim .inl ?ctl⟩
  case dac =>
    rintro rfl
    obtain ⟨-, rfl⟩ | ⟨r, q, hq, rfl⟩ := execTx_cases h
    · exact .inl rfl
    · exact .inr ⟨rfl, r, hq, rfl⟩
  case ctl =>
    rintro rfl
    obtain ⟨-, rfl⟩ | ⟨b, q, hq, rfl⟩ := execCpop_cases h
    · exact .inl rfl
    · exact .inr ⟨rfl, b, hq, rfl⟩

/-! ### Conditions (60_exceptions.md rules R161 to R164, R166) -/

/-- The condition that an operation raises in a state. -/
def raises (i : Instr) (s : State) : Option Condition :=
  match i with
  | .tick => if s.params.sqCap ≤ s.sq.length then some .sqFull else none
  | .rxbyte _ => if s.params.cqCap ≤ s.cq.length then some .cqFull else none
  | .noteon n _ => if s.params.period n = 0#16 then some .badPeriod else none
  | .nop | .tx | .noteoff _ | .prog _ | .cpop => none

/-- The push of a `TICK` raises `SQ_FULL` where there is no room. -/
theorem State.enqueueHeld_condition (s : State) {lab : Sample → PushResult → Label}
    (hok : ∀ x, (lab x .ok).condition = none) (hfull : ∀ x, (lab x .full).condition = some .sqFull) :
    (s.enqueueHeld lab).label.bind Label.condition =
      if s.params.sqCap ≤ s.sq.length then some .sqFull else none := by
  by_cases h : s.sq.length < s.params.sqCap
  · rw [State.enqueueHeld_room lab h, if_neg (Nat.not_le.mpr h)]
    exact hok s.held
  · rw [State.enqueueHeld_full lab h, if_pos (Nat.not_lt.mp h)]
    exact hfull s.held

/-- The condition read off the label is that of the operation in the state before it. -/
theorem exec_condition {s t : State} {i : Instr} (hi : i.wellFormed = true) (h : exec i s = .next t) :
    t.label.bind Label.condition = raises i s := by
  cases i with
  | nop => rw [execNop_cases h]; rfl
  | tick =>
    obtain ⟨-, rfl⟩ | ⟨-, acc, bank, -, rfl⟩ := execTick_cases h
    · exact s.enqueueHeld_condition (lab := .retry) (fun _ => rfl) (fun _ => rfl)
    · exact ((s.withBank bank).withHeld (sat12 acc)).enqueueHeld_condition (lab := .compute)
        (fun _ => rfl) (fun _ => rfl)
  | tx => obtain ⟨-, rfl⟩ | ⟨r, q, -, rfl⟩ := execTx_cases h <;> rfl
  | noteon n v =>
    obtain ⟨hp, rfl⟩ | ⟨hp, rfl⟩ := execNoteon_cases (v := v) h
    · exact (if_pos hp).symm
    · exact (if_neg hp).symm
  | noteoff n => obtain ⟨-, rfl⟩ | ⟨k, -, rfl⟩ := execNoteoff_cases h <;> rfl
  | prog c =>
    obtain ⟨w, -, rfl⟩ | ⟨hc, -⟩ := execProg_cases h
    · rfl
    · exact absurd hc (bne_iff_ne.mp hi)
  | rxbyte b =>
    obtain ⟨hroom, rfl⟩ | ⟨hfull, rfl⟩ := execRxbyte_cases h
    · exact (if_neg (Nat.not_le.mpr hroom)).symm
    · exact (if_pos hfull).symm
  | cpop => obtain ⟨-, rfl⟩ | ⟨b, q, -, rfl⟩ := execCpop_cases h <;> rfl

/-- Settles O49: the conditions by `raises`, at each operation. -/
theorem eachConditionBelongsToOneOperation : Obligations.EachConditionBelongsToOneOperation := by
  intro s t i l hi h hl
  have hraises : l.condition = raises i s := by
    rw [← exec_condition hi h, hl, Option.bind_some]
  rw [hraises]
  cases i with
  | tick => by_cases hfull : s.params.sqCap ≤ s.sq.length <;> simp [raises, hfull]
  | rxbyte b => by_cases hfull : s.params.cqCap ≤ s.cq.length <;> simp [raises, hfull]
  | noteon n v => by_cases hp : s.params.period n = 0#16 <;> simp [raises, hp]
  | nop | tx | noteoff | prog | cpop => simp [raises]

/-! ### Pitches (10_state.md rule R41, 42_control.md rules R133 to R135) -/

/-- A `NOTEON` of a pitch with a period leaves the pitch sounding in the slot that `Alloc` gives, and there alone. -/
theorem exec_noteon_sounds_once {s t : State} {n : Pitch} {v : Velocity} (hs : s.bank.PitchUnique)
    (hp : s.params.period n ≠ 0#16) (h : exec (.noteon n v) s = .next t) :
    ∃! i : Slot, (t.bank.get i).enabled = true ∧ (t.bank.get i).note = n := by
  obtain ⟨hp', -⟩ | ⟨-, rfl⟩ := execNoteon_cases (v := v) h
  · exact absurd hp' hp
  · simp only [State.withLabel_bank, State.withBank_bank]
    refine ⟨(s.alloc n).slot, by simp, fun j hj => by_contra fun hne => ?_⟩
    simp only [VoiceBank.get_set_ne _ _ _ _ hne] at hj
    exact State.alloc_only_sounding hs n hne hj

theorem exec_noteoff_silences {s t : State} {n : Pitch} (hs : s.bank.PitchUnique)
    (h : exec (.noteoff n) s = .next t) (i : Slot) :
    ¬((t.bank.get i).enabled = true ∧ (t.bank.get i).note = n) := by
  obtain ⟨hnone, rfl⟩ | ⟨k, hk, rfl⟩ := execNoteoff_cases h
  · exact VoiceBank.sounding_eq_none.mp hnone i
  · obtain ⟨⟨hek, hnk⟩, -⟩ := VoiceBank.sounding_eq_some.mp hk
    simp only [State.withLabel_bank, State.withBank_bank, VoiceBank.get_set]
    rintro ⟨he, hn⟩
    by_cases hik : i = k
    · rw [if_pos hik] at he
      exact Bool.false_ne_true he
    · rw [if_neg hik] at he hn
      exact hs i k hik ⟨he, hek, hn.trans hnk.symm⟩

/-- Settles O50. -/
theorem pitchSoundsInOneSlotOrNone : Obligations.PitchSoundsInOneSlotOrNone := by
  intro s n v hs
  obtain ⟨ton, hton⟩ := exec_answers (.noteon n v) hs
  obtain ⟨toff, htoff⟩ := exec_answers (.noteoff n) hs
  obtain ⟨-, -, hpitch, -⟩ := hs
  exact ⟨fun hp => ⟨ton, hton, exec_noteon_sounds_once hpitch hp hton⟩,
    toff, htoff, exec_noteoff_silences hpitch htoff⟩

end Sys2Proof.Machine

/-! What no operation reads: `stall` and `held` outside `TICK`, `held` outside a stall, and the fields of a disabled
slot (10_state.md rules R28, R33, R39, 60_exceptions.md rules R169, R170). -/

namespace Sys2Proof.Machine

/-! ### The stall and the held sample -/

/-- The operations that read the bank (10_state.md rule R28). -/
def readsBank : Instr → Bool
  | .tick | .noteon _ _ | .noteoff _ => true
  | .nop | .tx | .prog _ | .rxbyte _ | .cpop => false

section
variable {s t : State} {i : Instr}

theorem exec_bank_of_not_reads (hi : readsBank i = false) (h : exec i s = .next t) : t.bank = s.bank := by
  have hf := congrArg State.bank (exec_frame h)
  cases i with
  | tick | noteon | noteoff => cases hi
  | nop | tx | prog | rxbyte | cpop => exact hf

/-- An operation that does not read the bank reads neither `stall` nor `held`. -/
theorem exec_unread (hi : readsBank i = false) (h : exec i s = .next t) (b : VoiceBank) (st : Bool) (x : Sample) :
    exec i { s with bank := b, stall := st, held := x } = .next { t with bank := b, stall := st, held := x } := by
  cases i with
  | tick | noteon | noteoff => cases hi
  | nop => rw [execNop_cases h]; rfl
  | tx =>
    obtain ⟨hq, rfl⟩ | ⟨r, q, hq, rfl⟩ := execTx_cases h
    · exact exec_tx_of_nil hq
    · exact exec_tx_of_cons hq
  | prog c =>
    obtain ⟨w, hw, rfl⟩ | ⟨hc, rfl⟩ := execProg_cases h
    · exact exec_prog_of_some hw
    · exact exec_prog_of_none (Waveform.ofCode_eq_none.mpr hc)
  | rxbyte d =>
    obtain ⟨hroom, rfl⟩ | ⟨hfull, rfl⟩ := execRxbyte_cases h
    · exact exec_rxbyte_of_room d hroom
    · exact exec_rxbyte_of_full d hfull
  | cpop =>
    obtain ⟨hq, rfl⟩ | ⟨d, q, hq, rfl⟩ := execCpop_cases h
    · exact exec_cpop_of_nil hq
    · exact exec_cpop_of_cons hq

/-- No operation but `TICK` reads `stall` or `held`. -/
theorem exec_stall_held_unread (hi : i ≠ .tick) (h : exec i s = .next t) (st : Bool) (x : Sample) :
    exec i { s with stall := st, held := x } = .next { t with stall := st, held := x } := by
  cases i with
  | tick => exact absurd rfl hi
  | noteon n v =>
    obtain ⟨hp, rfl⟩ | ⟨hp, rfl⟩ := execNoteon_cases (v := v) h
    · exact exec_noteon_of_invalid v hp
    · exact exec_noteon_of_alloc v hp rfl
  | noteoff n =>
    obtain ⟨hnone, rfl⟩ | ⟨k, hk, rfl⟩ := execNoteoff_cases h
    · exact exec_noteoff_of_silent hnone
    · exact exec_noteoff_of_sounding hk
  | nop | tx | prog | rxbyte | cpop =>
    exact (exec_unread rfl h s.bank st x).trans (by rw [← exec_bank_of_not_reads rfl h])

/-- An operation that does not read the bank takes any other along. -/
theorem exec_bank_unread (hi : readsBank i = false) (h : exec i s = .next t) (b : VoiceBank) :
    exec i (s.withBank b) = .next (t.withBank b) := by
  have htick : i ≠ .tick := by
    rintro rfl
    cases hi
  have hstall := exec_stall_of_ne_tick htick h
  have hheld := (exec_held h).resolve_right htick
  exact (exec_unread hi h b s.stall s.held).trans (by rw [← hstall, ← hheld]; rfl)

end

/-- Settles O43: `held` at its own value. -/
theorem onlyTickReadsStall : Obligations.OnlyTickReadsStall := by
  intro s i b hi
  obtain ⟨t, ht⟩ := exec_answers_of_ne_tick hi s
  have hheld := (exec_held ht).resolve_right hi
  exact ⟨t, ht, (exec_stall_held_unread hi ht b s.held).trans (by rw [← hheld])⟩

/-- A computing tick writes `held` before it reads it. -/
theorem execTick_held_unread {s t : State} (hstall : s.stall = false) (h : execTick s = .next t) (x : Sample) :
    execTick { s with held := x } = .next t := by
  obtain ⟨hst, -⟩ | ⟨-, acc, bank, hm, rfl⟩ := execTick_cases h
  · exact absurd (hstall.symm.trans hst) Bool.false_ne_true
  · exact execTick_of_mix hstall hm

/-- Settles O42: a computing tick overwrites `held`, and the other operations do not read it. -/
theorem heldMattersOnlyInAStall : Obligations.HeldMattersOnlyInAStall := by
  refine ⟨fun s t i h hne => ?written, fun s i x hs hstall => ?unread⟩
  case written =>
    obtain rfl := (exec_held h).resolve_left hne
    obtain ⟨-, rfl⟩ | ⟨hstall, -⟩ := execTick_cases h
    · exact absurd (s.enqueueHeld_held _) hne
    · exact ⟨rfl, hstall⟩
  case unread =>
    obtain ⟨t, ht⟩ := exec_answers i hs
    refine ⟨t, ht, ?_⟩
    by_cases hi : i = .tick
    · subst hi
      rw [if_pos rfl]
      exact execTick_held_unread hstall ht x
    · rw [if_neg hi]
      have hst := exec_stall_of_ne_tick hi ht
      exact (exec_stall_held_unread hi ht s.stall x).trans (by rw [← hst])

/-- Settles O44: both ticks hold the same sum; one push finds room and the other does not. -/
theorem stallEntryIsPrecise : Obligations.StallEntryIsPrecise := by
  intro s cap hs hstall hfull hcap
  obtain ⟨-, hvoices, -⟩ := hs
  obtain ⟨acc, bank, hm⟩ := mix_answers hvoices
  exact ⟨_, _, execTick_of_mix_full hstall hm hfull.ge, execTick_of_mix_room hstall hm hcap, rfl, rfl, rfl⟩

/-! ### The fields of a disabled slot -/

theorem VoiceBank.set_set_self (b : VoiceBank) (k : Slot) (v v' : Voice) : (b.set k v).set k v' = b.set k v' := by
  fin_cases k <;> rfl

theorem VoiceBank.set_comm (b : VoiceBank) {j k : Slot} (h : j ≠ k) (v v' : Voice) :
    (b.set k v).set j v' = (b.set j v').set k v := by
  apply VoiceBank.ext_get
  intro i
  simp only [VoiceBank.get_set]
  split
  · next hj => rw [if_neg (hj ▸ h)]
  · rfl

section
variable {b : VoiceBank} {k : Slot} {v : Voice}

/-- Writing a disabled voice over another changes no search that asks for enabled slots. -/
theorem VoiceBank.sounding_set_disabled (hk : (b.get k).enabled = false) (hv : v.enabled = false) (n : Pitch) :
    (b.set k v).sounding n = b.sounding n := by
  unfold VoiceBank.sounding
  congr 1
  funext i
  rw [VoiceBank.get_set]
  split
  · next hi => rw [hi, hk, hv, Bool.false_and, Bool.false_and]
  · rfl

theorem VoiceBank.free_set_disabled (hk : (b.get k).enabled = false) (hv : v.enabled = false) :
    (b.set k v).free = b.free := by
  unfold VoiceBank.free
  congr 1
  funext i
  rw [VoiceBank.get_set]
  split
  · next hi => rw [hi, hk, hv]
  · rfl

/-- A disabled voice adds 0 to the mix and is left as it is. -/
theorem mix_set_disabled {c : VoiceBank} {acc : Nat} (hk : (b.get k).enabled = false) (hv : v.enabled = false)
    (h : mix b = .ok (acc, c)) : mix (b.set k v) = .ok (acc, c.set k v) := by
  obtain ⟨o, ho, hacc⟩ := mix_eq_ok_iff_sum.mp h
  refine mix_eq_ok_iff_sum.mpr ⟨o, fun i => ?_, hacc⟩
  rw [VoiceBank.get_set, VoiceBank.get_set]
  split
  · next hi =>
    have hzero : o i = 0 := by
      obtain ⟨-, hz, -⟩ | ⟨he, -⟩ := voiceStep_cases (ho i)
      · exact hz
      · exact absurd ((hi ▸ hk).symm.trans he) Bool.false_ne_true
    rw [hzero, voiceStep_disabled hv]
  · exact ho i

end

theorem State.alloc_set_disabled {s : State} {k : Slot} {v : Voice} (hk : (s.bank.get k).enabled = false)
    (hv : v.enabled = false) (n : Pitch) : (s.withBank (s.bank.set k v)).alloc n = s.alloc n := by
  unfold State.alloc
  rw [State.withBank_bank, VoiceBank.sounding_set_disabled hk hv, VoiceBank.free_set_disabled hk hv]
  rfl

theorem State.enqueueHeld_withBank (s : State) (b : VoiceBank) (lab : Sample → PushResult → Label) :
    (s.withBank b).enqueueHeld lab = (s.enqueueHeld lab).withBank b := by
  rw [State.enqueueHeld_eq, State.enqueueHeld_eq]
  rfl

/-- What the voice of a disabled slot can do to an operation: a `NOTEON` in that slot overwrites it, and every other
operation carries it along. -/
theorem exec_set_disabled {s t : State} {i : Instr} {k : Slot} (hk : (s.bank.get k).enabled = false)
    (h : exec i s = .next t) :
    (∀ v : Voice, v.enabled = false → exec i (s.withBank (s.bank.set k v)) = .next t) ∨
    (∀ v : Voice, v.enabled = false →
      exec i (s.withBank (s.bank.set k v)) = .next (t.withBank (t.bank.set k v))) := by
  cases i with
  | tick =>
    refine .inr fun v hv => ?_
    obtain ⟨hstall, rfl⟩ | ⟨hstall, acc, bank, hm, rfl⟩ := execTick_cases h
    · rw [State.enqueueHeld_bank, ← State.enqueueHeld_withBank]
      exact execTick_of_stall hstall
    · rw [State.enqueueHeld_bank, ← State.enqueueHeld_withBank]
      exact execTick_of_mix hstall (mix_set_disabled hk hv hm)
  | noteon n w =>
    obtain ⟨hp, rfl⟩ | ⟨hp, rfl⟩ := execNoteon_cases (v := w) h
    · exact .inr fun v _ => exec_noteon_of_invalid w hp
    · have hexec {v : Voice} (hv : v.enabled = false) :=
        exec_noteon_of_alloc (s := s.withBank (s.bank.set k v)) w hp (State.alloc_set_disabled hk hv n)
      by_cases hslot : (s.alloc n).slot = k
      · refine .inl fun v hv => (hexec hv).trans ?_
        rw [State.withBank_bank, hslot, VoiceBank.set_set_self]
        rfl
      · refine .inr fun v hv => (hexec hv).trans ?_
        rw [State.withBank_bank, VoiceBank.set_comm _ hslot]
        rfl
  | noteoff n =>
    obtain ⟨hnone, rfl⟩ | ⟨j, hj, rfl⟩ := execNoteoff_cases h
    · exact .inr fun v hv => exec_noteoff_of_silent ((VoiceBank.sounding_set_disabled hk hv n).trans hnone)
    · obtain ⟨⟨hej, -⟩, -⟩ := VoiceBank.sounding_eq_some.mp hj
      have hjk : j ≠ k := fun hjk => Bool.false_ne_true ((hjk ▸ hk).symm.trans hej)
      refine .inr fun v hv => ?_
      have hexec := exec_noteoff_of_sounding (s := s.withBank (s.bank.set k v))
        ((VoiceBank.sounding_set_disabled hk hv n).trans hj)
      rw [State.withBank_bank, VoiceBank.get_set_ne _ _ _ _ hjk, VoiceBank.set_comm _ hjk] at hexec
      exact hexec
  | nop | tx | prog | rxbyte | cpop =>
    rw [exec_bank_of_not_reads rfl h]
    exact .inr fun v _ => exec_bank_unread rfl h (s.bank.set k v)

/-- Settles O48: `exec_set_disabled` at each of the two voices. -/
theorem disabledVoiceIsNotRead : Obligations.DisabledVoiceIsNotRead := by
  intro s i k v v' hs hv hv' hk
  obtain ⟨t, ht⟩ := exec_answers i hs
  obtain hover | hcarry := exec_set_disabled hk ht
  · exact ⟨t, t, hover v hv, hover v' hv', .inl rfl⟩
  · refine ⟨_, _, hcarry v hv, hcarry v' hv', .inr ⟨VoiceBank.get_set_self _ _ _, ?_⟩⟩
    rw [State.withBank_bank, VoiceBank.set_set_self]
    rfl

end Sys2Proof.Machine

/-! Runs of one kind of word (41_tick_mix_enqueue.md rules R115, R117, 42_control.md rule R139) and the first
operation after reset (70_reset_and_hazards.md rule R181). -/

namespace Sys2Proof.Machine

/-! ### A burst of bytes (42_control.md rule R139) -/

theorem acceptWord_encode {s : State} {i : Instr} (hs : s.WellFormed) (hi : i.wellFormed = true) :
    acceptWord (encode i) s = exec i s :=
  acceptWord_of_op hs (decodeOfEncodeIsTheOperation i hi)

/-- `s` after the burst `ds`: its first bytes that fit are queued, and the label tells whether the last of them
did. -/
def State.afterBurst (s : State) (ds : List Byte) : State :=
  { s with cq := s.cq ++ ds.take (s.params.cqCap - s.cq.length)
           label := if ds = [] then s.label
                    else some (if s.cq.length + ds.length ≤ s.params.cqCap then .rxAccept else .rxDrop) }

@[simp] theorem State.afterBurst_nil (s : State) : s.afterBurst [] = s := by
  rw [State.afterBurst, List.take_nil, List.append_nil, if_pos rfl]

theorem State.afterBurst_of_ne_nil (s : State) {ds : List Byte} (h : ds ≠ []) :
    s.afterBurst ds =
      { s with cq := s.cq ++ ds.take (s.params.cqCap - s.cq.length)
               label := some (if s.cq.length + ds.length ≤ s.params.cqCap then .rxAccept else .rxDrop) } := by
  rw [State.afterBurst, if_neg h]

/-- A first byte that is queued takes one of the free places. -/
theorem State.afterBurst_cons_of_room {s : State} (d : Byte) (ds : List Byte)
    (hroom : s.cq.length < s.params.cqCap) :
    ((s.withCq (s.cq ++ [d])).withLabel .rxAccept).afterBurst ds = s.afterBurst (d :: ds) := by
  have hfree : s.params.cqCap - s.cq.length = s.params.cqCap - (s.cq.length + 1) + 1 := by omega
  rw [State.afterBurst_of_ne_nil s (List.cons_ne_nil d ds), hfree, List.take_succ_cons]
  cases ds with
  | nil => simp [State.withCq, State.withLabel, Nat.succ_le_of_lt hroom]
  | cons d' ds =>
    have hlen : s.cq.length + 1 + (ds.length + 1) = s.cq.length + (ds.length + 1 + 1) := by omega
    rw [State.afterBurst_of_ne_nil _ (List.cons_ne_nil d' ds)]
    simp [State.withCq, State.withLabel, hlen]

/-- A first byte that is dropped leaves no free place for the others. -/
theorem State.afterBurst_cons_of_full {s : State} (d : Byte) (ds : List Byte)
    (hfull : s.params.cqCap ≤ s.cq.length) :
    (s.withLabel .rxDrop).afterBurst ds = s.afterBurst (d :: ds) := by
  have hfree : s.params.cqCap - s.cq.length = 0 := Nat.sub_eq_zero_of_le hfull
  have hdrop (n : Nat) : ¬ s.cq.length + (n + 1) ≤ s.params.cqCap := by omega
  rw [State.afterBurst_of_ne_nil s (List.cons_ne_nil d ds), hfree]
  cases ds with
  | nil => simp [State.withLabel, hdrop]
  | cons d' ds =>
    rw [State.afterBurst_of_ne_nil _ (List.cons_ne_nil d' ds)]
    simp [State.withLabel, hfree, hdrop]

theorem runWords_burst (ds : List Byte) : ∀ s : State, s.WellFormed →
    runWords (ds.map fun d => encode (.rxbyte d)) s = .next (s.afterBurst ds) := by
  induction ds with
  | nil =>
    intro s _
    rw [State.afterBurst_nil]
    rfl
  | cons d ds ih =>
    intro s hs
    have hword := acceptWord_encode (i := .rxbyte d) hs rfl
    obtain hroom | hfull := Nat.lt_or_ge s.cq.length s.params.cqCap
    · have hfirst := hword.trans (exec_rxbyte_of_room d hroom)
      rw [List.map_cons, runWords_cons hfirst, ih _ (acceptWord_keeps_wellFormed hfirst),
        State.afterBurst_cons_of_room d ds hroom]
    · have hfirst := hword.trans (exec_rxbyte_of_full d hfull)
      rw [List.map_cons, runWords_cons hfirst, ih _ (acceptWord_keeps_wellFormed hfirst),
        State.afterBurst_cons_of_full d ds hfull]

/-- Settles O39: by induction on the burst. -/
theorem burstKeepsTheFirstBytesThatFit : Obligations.BurstKeepsTheFirstBytesThatFit := by
  intro s ds hs hds
  rw [← State.afterBurst_of_ne_nil s hds]
  simp only [← encode_rxbyte]
  exact runWords_burst ds s hs

/-! ### `TICK`s in a stall (41_tick_mix_enqueue.md rule R115) -/

theorem acceptWord_tick {s : State} (hs : s.WellFormed) : acceptWord 0x10000000#32 s = execTick s :=
  acceptWord_encode (i := .tick) hs rfl

theorem acceptWord_tx {s : State} (hs : s.WellFormed) : acceptWord 0x20000000#32 s = exec .tx s :=
  acceptWord_encode (i := .tx) hs rfl

theorem execTick_retry_full {s : State} (hstall : s.stall = true) (hfull : s.params.sqCap ≤ s.sq.length) :
    execTick s = .next (s.withLabel (.retry s.held .full)) := by
  rw [execTick_of_stall hstall, State.enqueueHeld_full _ (Nat.not_lt.mpr hfull), ← hstall]
  rfl

theorem execTick_retry_room {s : State} (hstall : s.stall = true) (hroom : s.sq.length < s.params.sqCap) :
    execTick s = .next (((s.withSq (s.sq ++ [s.held])).withStall false).withLabel (.retry s.held .ok)) := by
  rw [execTick_of_stall hstall, State.enqueueHeld_room _ hroom]

theorem runWords_ticks_in_stall (n : Nat) : ∀ s : State, s.WellFormed → s.stall = true →
    s.params.sqCap ≤ s.sq.length →
    runWords (List.replicate (n + 1) 0x10000000#32) s = .next (s.withLabel (.retry s.held .full)) := by
  induction n with
  | zero =>
    intro s hs hstall hfull
    have htick := (acceptWord_tick hs).trans (execTick_retry_full hstall hfull)
    rw [List.replicate_succ, runWords_cons htick]
    rfl
  | succ n ih =>
    intro s hs hstall hfull
    have htick := (acceptWord_tick hs).trans (execTick_retry_full hstall hfull)
    rw [List.replicate_succ, runWords_cons htick]
    exact ih (s.withLabel (.retry s.held .full)) hs hstall hfull

/-- Settles O58: the `TICK`s by induction on their number; the `TX` makes the one free place that the retry takes. -/
theorem staleSampleIsRetriedUntilDelivered : Obligations.StaleSampleIsRetriedUntilDelivered := by
  intro s hs hstall hfull
  refine ⟨fun n => runWords_ticks_in_stall n s hs hstall hfull.ge, fun r q hq => ?_⟩
  have htx := (acceptWord_tx hs).trans (exec_tx_of_cons hq)
  have hroom : q.length < s.params.sqCap := by
    rw [hq, List.length_cons] at hfull
    omega
  have htick := (acceptWord_tick (acceptWord_keeps_wellFormed htx)).trans (execTick_retry_room hstall hroom)
  rw [runWords_cons htx, runWords_cons htick]
  rfl

/-! ### `TICK`s without a `TX` (41_tick_mix_enqueue.md rule R117) -/

/-- Where `TICK`s have taken `s` after `n + 1` of them: as many samples as fit, the stall for the rest, nothing sent. -/
structure Undrained (n : Nat) (s t : State) : Prop where
  length : t.sq.length = min (s.sq.length + n + 1) s.params.sqCap
  stall : t.stall = true ↔ s.params.sqCap < s.sq.length + n + 1
  kept : s.sq <+: t.sq
  dac : t.dac = s.dac

theorem State.enqueueHeld_undrained {s : State} (lab : Sample → PushResult → Label) (hs : s.QueuesBounded) :
    Undrained 0 s (s.enqueueHeld lab) := by
  obtain ⟨hle, -⟩ := hs
  obtain hroom | hfull := Nat.lt_or_ge s.sq.length s.params.sqCap
  · have hlength : (s.sq ++ [s.held]).length = min (s.sq.length + 0 + 1) s.params.sqCap := by
      rw [List.length_append, List.length_singleton]
      omega
    rw [State.enqueueHeld_room lab hroom]
    exact ⟨hlength, iff_of_false Bool.false_ne_true (by omega), List.prefix_append _ _, rfl⟩
  · have hlength : s.sq.length = min (s.sq.length + 0 + 1) s.params.sqCap := by omega
    rw [State.enqueueHeld_full lab (Nat.not_lt.mpr hfull)]
    exact ⟨hlength, iff_of_true rfl (by omega), List.prefix_rfl, rfl⟩

theorem execTick_undrained {s t : State} (hs : s.QueuesBounded) (h : execTick s = .next t) : Undrained 0 s t := by
  obtain ⟨-, rfl⟩ | ⟨-, acc, bank, -, rfl⟩ := execTick_cases h
  · exact State.enqueueHeld_undrained _ hs
  · have hs' : ((s.withBank bank).withHeld (sat12 acc)).QueuesBounded := hs
    obtain ⟨hlength, hstall, hkept, hdac⟩ := State.enqueueHeld_undrained .compute hs'
    exact ⟨hlength, hstall, hkept, hdac⟩

theorem acceptWord_tick_undrained {s t : State} (h : acceptWord 0x10000000#32 s = .next t) : Undrained 0 s t := by
  obtain ⟨hs, -⟩ := acceptWord_cases h
  have htick := (acceptWord_tick hs).symm.trans h
  obtain ⟨-, -, -, hqueues⟩ := hs
  exact execTick_undrained hqueues htick

/-- One `TICK` before `n + 1` others. -/
theorem Undrained.cons {n : Nat} {s t u : State} (hp : t.params = s.params) (hle : s.sq.length ≤ s.params.sqCap)
    (hst : Undrained 0 s t) (htu : Undrained n t u) : Undrained (n + 1) s u := by
  obtain ⟨hlength, -, hkept, hdac⟩ := hst
  obtain ⟨hlength', hstall', hkept', hdac'⟩ := htu
  rw [hp] at hlength' hstall'
  refine ⟨by omega, hstall'.trans ?_, hkept.trans hkept', hdac'.trans hdac⟩
  omega

theorem runWords_ticks_undrained (n : Nat) : ∀ s : State, s.WellFormed →
    ∃ t, runWords (List.replicate (n + 1) 0x10000000#32) s = .next t ∧ Undrained n s t := by
  induction n with
  | zero =>
    intro s hs
    obtain ⟨t, ht⟩ := acceptWord_answers hs 0x10000000#32
    exact ⟨t, runWords_cons ht [], acceptWord_tick_undrained ht⟩
  | succ n ih =>
    intro s hs
    obtain ⟨t, ht⟩ := acceptWord_answers hs 0x10000000#32
    obtain ⟨u, hu, hrest⟩ := ih t (acceptWord_keeps_wellFormed ht)
    obtain ⟨-, -, -, hle, -⟩ := hs
    exact ⟨u, (runWords_cons ht _).trans hu, .cons (acceptWord_params ht) hle (acceptWord_tick_undrained ht) hrest⟩

/-- Settles O59: by induction on the number of `TICK`s. -/
theorem undrainedQueueFillsThenStalls : Obligations.UndrainedQueueFillsThenStalls := by
  intro s n hs
  obtain ⟨t, ht, hlength, hstall, hkept, hdac⟩ := runWords_ticks_undrained n s hs
  exact ⟨t, ht, hlength, hstall, hkept, hdac⟩

/-! ### After reset (70_reset_and_hazards.md rule R181) -/

theorem VoiceBank.reset_sounding (n : Pitch) : VoiceBank.reset.sounding n = none :=
  VoiceBank.sounding_eq_none.mpr fun i h => by
    rw [VoiceBank.reset_get] at h
    exact Bool.false_ne_true h.1

theorem VoiceBank.reset_free : VoiceBank.reset.free = some 0 := by decide

/-- Four disabled voices mix to 0. -/
theorem VoiceBank.reset_mix : mix VoiceBank.reset = .ok (0, VoiceBank.reset) :=
  mix_eq_ok_iff_sum.mpr ⟨fun _ => 0, fun i => by rw [VoiceBank.reset_get]; exact voiceStep_disabled rfl, rfl⟩

/-- Settles O15: each operation by its rule, at the empty queues and the silent bank of the reset state. -/
theorem firstOperationAfterReset : Obligations.FirstOperationAfterReset := by
  intro p hp s
  refine ⟨?tick, ?transmit, exec_tx_of_nil rfl, exec_cpop_of_nil rfl, fun n => ?noteoff, fun n v hn => ?noteon,
    fun w => exec_prog_code w s, fun b => exec_rxbyte_of_room b hp.2⟩
  case tick => exact execTick_of_mix_room (s := s) rfl VoiceBank.reset_mix hp.1
  case transmit => exact exec_tx_of_cons (s := { s with sq := [0#12], label := some (.compute 0#12 .ok) }) rfl
  case noteoff => exact exec_noteoff_of_silent (VoiceBank.reset_sounding n)
  case noteon =>
    have halloc : s.alloc n = ⟨0, .free, 0⟩ :=
      State.alloc_of_free (s := s) (VoiceBank.reset_sounding n) VoiceBank.reset_free
    exact exec_noteon_of_alloc v hn halloc

end Sys2Proof.Machine
